-- ==== Sys2Proof/Word.lean ====
section
/-! DEFINITION. The word types of RoAC-MDF (spec/00_scope.md R7, R8): `u8`, `i8`, `u16`, and the printable
range of a line byte (spec/30_encoding.md R80). -/

namespace Sys2Proof

/-- `u8` (R8): a duty compare value (`DUTY_W` = 8), a byte of a line or of a response. -/
abbrev Byte := BitVec 8

/-- `i8` (R8): a speed or a `set` value (`SPEED_W` = 8); read as signed through `BitVec.toInt`. -/
abbrev I8 := BitVec 8

/-- `u16` (R8): a feedback sample (`SAMPLE_W` = 16). -/
abbrev U16 := BitVec 16

/-- The printable ASCII range 0x20..0x7E: the bytes a line can hold (R80). -/
def isPrintable (b : Byte) : Bool := decide (0x20 ≤ b.toNat) && decide (b.toNat ≤ 0x7E)

end Sys2Proof
end

