-- ==== Sys2Proof/Config.lean ====
section
/-! DEFINITION. The parameters of RoAC-MDF (spec/00_scope.md R7, spec/10_state.md R34): what one build or
board fixes for a whole run. `Config` is plain data. `STRATEGY` is not a field of it: it is which of the two
register sets the Motor Driver has (`Machine.Drive`), so the two can never disagree. `PWM_FRACTION` is an
argument of the one function that describes a drive (`Machine.Mode.onFraction`), since no rule reads it (R146). -/

namespace Sys2Proof

/-- `NMOT` = 2: "exactly two independently driven motors" (R7). -/
inductive Motor where
  | m1
  | m2
  deriving DecidableEq, Repr

/-- `other(M1) = M2`, `other(M2) = M1` (R9). -/
def Motor.other : Motor → Motor
  | .m1 => .m2
  | .m2 => .m1

/-- One value per motor: `X[M1]` and `X[M2]`. -/
structure PerMotor (α : Type) where
  m1 : α
  m2 : α
  deriving DecidableEq, Repr

/-- `X[m]`. -/
def PerMotor.get {α : Type} (x : PerMotor α) : Motor → α
  | .m1 => x.m1
  | .m2 => x.m2

/-- `X[m] <- v`. -/
def PerMotor.set {α : Type} (x : PerMotor α) (m : Motor) (v : α) : PerMotor α :=
  match m with
  | .m1 => { x with m1 := v }
  | .m2 => { x with m2 := v }

/-- `STRATEGY`: "build-time-selected (not runtime-switchable)" (R7, R130). -/
inductive Strategy where
  | brakingPWM
  | coastingPWM
  deriving DecidableEq, Repr

/-- `SIGN[m]`, the per-motor sign convention (R7, D13). -/
inductive SignConv where
  | normal
  | inverted
  deriving DecidableEq, Repr

/-- `HEX_PAD`, the digit count of a `get` response (R7, R96, D4). -/
inductive HexPad where
  | minimal
  | fixed
  deriving DecidableEq, Repr

/-- `ERRTEXT`: the text after `Error: ` for each kind that is answered by an error line (R253). The position
`CMD` of `UnknownToken` has no text: it is answered by `Invalid command` (R255). -/
structure ErrText where
  unknownToken : List Byte
  missingParameter : List Byte
  invalidInteger : List Byte
  notImplemented : List Byte
  unsupportedAction : List Byte
  deriving DecidableEq, Repr

/-- The default texts of R253, in the bytes its table gives. -/
def ErrText.default : ErrText where
  unknownToken := [0x55, 0x6E, 0x6B, 0x6E, 0x6F, 0x77, 0x6E, 0x20, 0x74, 0x6F, 0x6B, 0x65, 0x6E]
  missingParameter :=
    [0x4D, 0x69, 0x73, 0x73, 0x69, 0x6E, 0x67, 0x20, 0x70, 0x61, 0x72, 0x61, 0x6D, 0x65, 0x74, 0x65, 0x72]
  invalidInteger := [0x49, 0x6E, 0x76, 0x61, 0x6C, 0x69, 0x64, 0x20, 0x69, 0x6E, 0x74, 0x65, 0x67, 0x65, 0x72]
  notImplemented :=
    [0x4E, 0x6F, 0x74, 0x20, 0x69, 0x6D, 0x70, 0x6C, 0x65, 0x6D, 0x65, 0x6E, 0x74, 0x65, 0x64]
  unsupportedAction :=
    [0x55, 0x6E, 0x73, 0x75, 0x70, 0x70, 0x6F, 0x72, 0x74, 0x65, 0x64, 0x20, 0x61, 0x63, 0x74, 0x69, 0x6F, 0x6E]

/-- The parameters of R7 and R34 that a step reads. -/
structure Config where
  /-- `COAST_INVERT`: the `CoastingPWM` compare value is stored inverted (R133, D14). -/
  coastInvert : Bool
  /-- `SIGN[m]` (D13). -/
  sign : PerMotor SignConv
  /-- `HEX_PAD` (D4). -/
  hexPad : HexPad
  /-- `ERRTEXT` (D3). -/
  errText : ErrText
  /-- `LINE_CAP`: usable bytes of the line buffer (D33). -/
  lineCap : Nat
  /-- `ADC_BITS`: conversion resolution (D21). -/
  adcBits : Nat
  /-- `SAMPLE_RESET`: a sample cell before its first conversion (D15). -/
  sampleReset : U16
  /-- `BOOT_EN_MOTORS`: whether boot enables both motors (D16). -/
  bootEnMotors : Bool
  deriving DecidableEq, Repr

/-- The values R7 gives. -/
def Config.default : Config where
  coastInvert := true
  sign := { m1 := .normal, m2 := .normal }
  hexPad := .minimal
  errText := ErrText.default
  lineCap := 127
  adcBits := 10
  sampleReset := 0
  bootEnMotors := true

end Sys2Proof
end

