-- ==== Sys2Proof/Syntax.lean ====
section
/-! DEFINITION. The instructions of RoAC-MDF (spec/00_scope.md R3): one constructor of `Instr` per row of
spec/opcode_table.json, the 20 command forms and the 7 events. Also the property names (spec/10_state.md R30),
the error kinds (spec/60_exceptions.md R250) and the parsed command (spec/10_state.md R20). -/

namespace Sys2Proof

/-- The closed set of ten properties, in the order of R30. -/
inductive PropertyId where
  | m1Speed
  | m2Speed
  | m1Disable
  | m2Disable
  | led1
  | led2
  | led3
  | led4
  | m1Current
  | m2Current
  deriving DecidableEq, Repr

/-- The ten properties in the order of R30. -/
def PropertyId.all : List PropertyId :=
  [.m1Speed, .m2Speed, .m1Disable, .m2Disable, .led1, .led2, .led3, .led4, .m1Current, .m2Current]

/-- The property address of R30 (D1); it is never on the wire. -/
def PropertyId.addr : PropertyId → Nat
  | .m1Speed => 0
  | .m2Speed => 1
  | .m1Disable => 2
  | .m2Disable => 3
  | .led1 => 4
  | .led2 => 5
  | .led3 => 6
  | .led4 => 7
  | .m1Current => 8
  | .m2Current => 9

/-- The position an `UnknownToken` error names (R180, R252). -/
inductive TokenPos where
  | cmd
  | prop
  deriving DecidableEq, Repr

/-- The five error kinds of R250. -/
inductive ErrorKind where
  | unknownToken (pos : TokenPos)
  | missingParameter
  | invalidInteger
  | notImplemented
  | unsupportedAction
  deriving DecidableEq, Repr

/-- The numeric code of R250 (D2); it is never on the wire. -/
def ErrorKind.code : ErrorKind → Nat
  | .unknownToken _ => 1
  | .missingParameter => 2
  | .invalidInteger => 3
  | .notImplemented => 4
  | .unsupportedAction => 5

/-- The transient `ParsedCommand` of R20: `ACTION`, `PROP`, and `VALUE` for `Set` only. -/
inductive ParsedCommand where
  | get (prop : PropertyId)
  | set (prop : PropertyId) (value : I8)
  deriving DecidableEq, Repr

/-- One constructor per row of spec/opcode_table.json. A `get` carries the ignored `TAIL` of its line (format
G: `none` at end of line, `some t` after a space); a `set` carries its `VALUE` (format S); an event carries
the operands its row names. -/
inductive Instr where
  | getM1speed (tail : Option (List Byte))
  | getM2speed (tail : Option (List Byte))
  | getM1disable (tail : Option (List Byte))
  | getM2disable (tail : Option (List Byte))
  | getLed1 (tail : Option (List Byte))
  | getLed2 (tail : Option (List Byte))
  | getLed3 (tail : Option (List Byte))
  | getLed4 (tail : Option (List Byte))
  | getM1current (tail : Option (List Byte))
  | getM2current (tail : Option (List Byte))
  | setM1speed (v : I8)
  | setM2speed (v : I8)
  | setM1disable (v : I8)
  | setM2disable (v : I8)
  | setLed1 (v : I8)
  | setLed2 (v : I8)
  | setLed3 (v : I8)
  | setLed4 (v : I8)
  | setM1current (v : I8)
  | setM2current (v : I8)
  | evRxByte (b : Byte)
  | evAdcDone (a : U16)
  | isrConvComplete
  | bootConnect
  | bootArm
  | bootEnable (m : Motor) (e : Bool)
  | bootDone
  deriving DecidableEq, Repr

/-- The format of an instruction (R82): a `get` line, a `set` line, or an event, which has no text form. -/
inductive Format where
  | get (prop : PropertyId) (tail : Option (List Byte))
  | set (prop : PropertyId) (value : I8)
  | event
  deriving DecidableEq, Repr

/-- The format and the fields of each instruction (the rows' `format`, R86). -/
def Instr.format : Instr → Format
  | .getM1speed t => .get .m1Speed t
  | .getM2speed t => .get .m2Speed t
  | .getM1disable t => .get .m1Disable t
  | .getM2disable t => .get .m2Disable t
  | .getLed1 t => .get .led1 t
  | .getLed2 t => .get .led2 t
  | .getLed3 t => .get .led3 t
  | .getLed4 t => .get .led4 t
  | .getM1current t => .get .m1Current t
  | .getM2current t => .get .m2Current t
  | .setM1speed v => .set .m1Speed v
  | .setM2speed v => .set .m2Speed v
  | .setM1disable v => .set .m1Disable v
  | .setM2disable v => .set .m2Disable v
  | .setLed1 v => .set .led1 v
  | .setLed2 v => .set .led2 v
  | .setLed3 v => .set .led3 v
  | .setLed4 v => .set .led4 v
  | .setM1current v => .set .m1Current v
  | .setM2current v => .set .m2Current v
  | .evRxByte _ => .event
  | .evAdcDone _ => .event
  | .isrConvComplete => .event
  | .bootConnect => .event
  | .bootArm => .event
  | .bootEnable _ _ => .event
  | .bootDone => .event

end Sys2Proof
end

