-- ==== Sys2Proof/WellFormed.lean ====
section
/-! DEFINITION. Well-formed instructions and parameters: the limits the spec puts on the fields of an encoding
(a line is printable and at most `LINE_CAP` bytes, spec/30_encoding.md R80, R82; a conversion result is below
`2^ADC_BITS`, spec/41_sampler.md R112) and on the parameters (spec/10_state.md R26, spec/60_exceptions.md R253). -/

namespace Sys2Proof

/-- `n`, the byte length of a property's name (R84). -/
def PropertyId.nameLen : PropertyId → Nat
  | .m1Speed => 7
  | .m2Speed => 7
  | .m1Disable => 9
  | .m2Disable => 9
  | .led1 => 4
  | .led2 => 4
  | .led3 => 4
  | .led4 => 4
  | .m1Current => 9
  | .m2Current => 9

/-- `k`, the byte length of a value's shortest numeral (R82, R85). -/
def valueLen (v : I8) : Nat :=
  (if v.toInt < 0 then 1 else 0) + (if 100 ≤ v.toInt.natAbs then 3 else if 10 ≤ v.toInt.natAbs then 2 else 1)

/-- The length of a `get` line fits the buffer and its tail is printable (format G, R80, R82). -/
def getFits (c : Config) (p : PropertyId) : Option (List Byte) → Bool
  | none => decide (4 + p.nameLen ≤ c.lineCap)
  | some t => decide (4 + p.nameLen + 1 + t.length ≤ c.lineCap) && t.all isPrintable

/-- The length of a `set` line with the shortest numeral fits the buffer (format S, R82). -/
def setFits (c : Config) (p : PropertyId) (v : I8) : Bool :=
  decide (5 + p.nameLen + valueLen v ≤ c.lineCap)

/-- An instruction whose fields are ones its encoding admits under the parameters `c`. -/
def Instr.wf (c : Config) (i : Instr) : Bool :=
  match i.format with
  | .get p t => getFits c p t
  | .set p v => setFits c p v
  | .event =>
    match i with
    | .evAdcDone a => decide (a.toNat < 2 ^ c.adcBits)
    | _ => true

/-- The texts of `ERRTEXT` are printable ASCII (R253). -/
def ErrText.wf (e : ErrText) : Bool :=
  e.unknownToken.all isPrintable && e.missingParameter.all isPrintable && e.invalidInteger.all isPrintable
    && e.notImplemented.all isPrintable && e.unsupportedAction.all isPrintable

/-- Parameters the spec admits: a sample fits its 16-bit cell and starts in range (R26), texts are printable (R253). -/
def Config.wf (c : Config) : Bool :=
  decide (c.adcBits ≤ 16) && decide (c.sampleReset.toNat < 2 ^ c.adcBits) && c.errText.wf

end Sys2Proof
end

