-- ==== Sys2Proof/Decode.lean ====
section
/-! DEFINITION. The decoder and the encoder (spec/30_encoding.md, spec/44_parser.md): a line is split at its
first spaces, its two names are looked up, its value is parsed. `decode` is total on any byte list and rejects
by name. After it stands the encoder, written from the same tables. -/

namespace Sys2Proof

/-! ### ASCII codes (R11) -/

/-- SP. -/
def Ascii.sp : Byte := 0x20
/-- CR. -/
def Ascii.cr : Byte := 0x0D
/-- LF. -/
def Ascii.lf : Byte := 0x0A
/-- `-`. -/
def Ascii.dash : Byte := 0x2D
/-- `0`. -/
def Ascii.zero : Byte := 0x30

/-- A decimal digit byte 0x30..0x39 (R81). -/
def Ascii.isDigit (b : Byte) : Bool := decide (0x30 ≤ b.toNat) && decide (b.toNat ≤ 0x39)

/-- The byte of a digit value: 0..9 give 0x30..0x39, 10..15 give 0x41..0x46 (R11, R96). -/
def Ascii.digit (d : Nat) : Byte := if d < 10 then BitVec.ofNat 8 (0x30 + d) else BitVec.ofNat 8 (0x37 + d)

/-! ### Name tables (R83, R84) -/

/-- `get`. -/
def cmdGet : List Byte := [0x67, 0x65, 0x74]
/-- `set`. -/
def cmdSet : List Byte := [0x73, 0x65, 0x74]

/-- The property name table of R84. -/
def PropertyId.name : PropertyId → List Byte
  | .m1Speed => [0x6D, 0x31, 0x73, 0x70, 0x65, 0x65, 0x64]
  | .m2Speed => [0x6D, 0x32, 0x73, 0x70, 0x65, 0x65, 0x64]
  | .m1Disable => [0x6D, 0x31, 0x64, 0x69, 0x73, 0x61, 0x62, 0x6C, 0x65]
  | .m2Disable => [0x6D, 0x32, 0x64, 0x69, 0x73, 0x61, 0x62, 0x6C, 0x65]
  | .led1 => [0x6C, 0x65, 0x64, 0x31]
  | .led2 => [0x6C, 0x65, 0x64, 0x32]
  | .led3 => [0x6C, 0x65, 0x64, 0x33]
  | .led4 => [0x6C, 0x65, 0x64, 0x34]
  | .m1Current => [0x6D, 0x31, 0x63, 0x75, 0x72, 0x72, 0x65, 0x6E, 0x74]
  | .m2Current => [0x6D, 0x32, 0x63, 0x75, 0x72, 0x72, 0x65, 0x6E, 0x74]

/-- The property a PROP token names: exact, case-sensitive comparison over the whole token (R84, R186). -/
def lookupProp (t : List Byte) : Option PropertyId := PropertyId.all.find? fun p => p.name == t

/-! ### Tokens and values -/

/-- The token at the front, up to the next SP or the end (R181), and what follows that SP (`none`: no SP). -/
def splitSp : List Byte → List Byte × Option (List Byte)
  | [] => ([], none)
  | b :: l => if b = Ascii.sp then ([], some l) else (b :: (splitSp l).1, (splitSp l).2)

/-- `mag <- mag * 10 + (c - 0x30)` over the digits, unbounded; `none` at a non-digit (R189). -/
def magnitude (mag : Nat) : List Byte → Option Nat
  | [] => some mag
  | c :: l => if Ascii.isDigit c then magnitude (mag * 10 + (c.toNat - 0x30)) l else none

/-- The optional leading dash and the numeral after it (R85, R189). -/
def splitSign : List Byte → Bool × List Byte
  | [] => (false, [])
  | c :: l => if c = Ascii.dash then (true, l) else (false, c :: l)

/-- The range check of R190, after negation, and the `i8` of R191. -/
def narrowValue (v : Int) : Option I8 := if -128 ≤ v ∧ v ≤ 127 then some (BitVec.ofInt 8 v) else none

/-- `parseValue(V)` (R189 to R191); `none` is `InvalidInteger`. -/
def parseValue (V : List Byte) : Option I8 :=
  match (splitSign V).2 with
  | [] => none
  | ds =>
    match magnitude 0 ds with
    | none => none
    | some mag => narrowValue (if (splitSign V).1 then -(mag : Int) else (mag : Int))

/-! ### parseLine (R180) -/

/-- Step 3 (R188 to R191): the value of a `set` whose property is `p`. -/
def parseStep3 (p : PropertyId) : Option (List Byte) → Except ErrorKind ParsedCommand
  | none => .error .missingParameter
  | some V =>
    match parseValue V with
    | none => .error .invalidInteger
    | some v => .ok (.set p v)

/-- Step 2 (R185 to R187): the property; `isSet` is the action of step 1. -/
def parseStep2 (isSet : Bool) : Option (List Byte) → Except ErrorKind ParsedCommand
  | none => .error .missingParameter
  | some r =>
    match (splitSp r).1 with
    | [] => .error .missingParameter
    | T =>
      match lookupProp T with
      | none => .error (.unknownToken .prop)
      | some p => if isSet then parseStep3 p (splitSp r).2 else .ok (.get p)

/-- `parseLine(L)` (R180): step 1, the command (R182 to R184), then steps 2 and 3; the first error ends it. -/
def parseLine (L : List Byte) : Except ErrorKind ParsedCommand :=
  if (splitSp L).1 = cmdGet then parseStep2 false (splitSp L).2
  else if (splitSp L).1 = cmdSet then parseStep2 true (splitSp L).2
  else .error (.unknownToken .cmd)

/-! ### The decoder -/

/-- Why a byte list decodes to no instruction: the empty line (R91), or the error of R87 to R90. -/
inductive DecodeError where
  | emptyLine
  | command (k : ErrorKind)
  deriving DecidableEq, Repr

/-- The `get` form of a property (R86). -/
def Instr.ofGet (p : PropertyId) (t : Option (List Byte)) : Instr :=
  match p with
  | .m1Speed => .getM1speed t
  | .m2Speed => .getM2speed t
  | .m1Disable => .getM1disable t
  | .m2Disable => .getM2disable t
  | .led1 => .getLed1 t
  | .led2 => .getLed2 t
  | .led3 => .getLed3 t
  | .led4 => .getLed4 t
  | .m1Current => .getM1current t
  | .m2Current => .getM2current t

/-- The `set` form of a property (R86). -/
def Instr.ofSet (p : PropertyId) (v : I8) : Instr :=
  match p with
  | .m1Speed => .setM1speed v
  | .m2Speed => .setM2speed v
  | .m1Disable => .setM1disable v
  | .m2Disable => .setM2disable v
  | .led1 => .setLed1 v
  | .led2 => .setLed2 v
  | .led3 => .setLed3 v
  | .led4 => .setLed4 v
  | .m1Current => .setM1current v
  | .m2Current => .setM2current v

/-- What follows the PROP token's SP, the ignored TAIL of format G (R82, R187). -/
def lineTail (L : List Byte) : Option (List Byte) :=
  match (splitSp L).2 with
  | none => none
  | some r => (splitSp r).2

/-- The instruction a parsed command of the line `L` is (R86). -/
def instrOf (L : List Byte) : ParsedCommand → Instr
  | .get p => Instr.ofGet p (lineTail L)
  | .set p v => Instr.ofSet p v

/-- The decoder (R86 to R91): every byte list decodes to one instruction or to one named rejection. -/
def decode (L : List Byte) : Except DecodeError Instr :=
  match L with
  | [] => .error .emptyLine
  | b :: l =>
    match parseLine (b :: l) with
    | .error k => .error (.command k)
    | .ok c => .ok (instrOf (b :: l) c)

/-! ### The encoder -/

/-- The last `k` digits of `v` in a base, most significant first. -/
def digitsFixed (base : Nat) : Nat → Nat → List Byte
  | 0, _ => []
  | k + 1, v => digitsFixed base k (v / base) ++ [Ascii.digit (v % base)]

/-- No leading zero digits, at least one digit. -/
def stripZeros : List Byte → List Byte
  | [] => []
  | [d] => [d]
  | d :: e :: l => if d = Ascii.zero then stripZeros (e :: l) else d :: e :: l

/-- The shortest VALUE field of `v`: an optional dash, then decimal digits (R85). -/
def decimal (v : I8) : List Byte :=
  (if v.toInt < 0 then [Ascii.dash] else []) ++ stripZeros (digitsFixed 10 3 v.toInt.natAbs)

/-- The end of a `get` line: nothing, or SP and TAIL (R82). -/
def tailBytes : Option (List Byte) → List Byte
  | none => []
  | some t => Ascii.sp :: t

/-- The line of an instruction (formats G and S of R82); an event has no text form (R94). -/
def encode (i : Instr) : Option (List Byte) :=
  match i.format with
  | .get p t => some (cmdGet ++ Ascii.sp :: (p.name ++ tailBytes t))
  | .set p v => some (cmdSet ++ Ascii.sp :: (p.name ++ Ascii.sp :: decimal v))
  | .event => none

/-! ### The opcode table's words -/

/-- The `n` lowest bytes of `w`, byte 0 (bits 7..0) first: a line's bytes in arrival order (R61). -/
def wordBytes : Nat → Nat → List Byte
  | 0, _ => []
  | n + 1, w => BitVec.ofNat 8 w :: wordBytes n (w / 256)

/-- The line a table word stands for. A `set` row's word ends at the SP before VALUE, and a VALUE has at least
one byte (R82): the operand the table gives no bits is completed by the numeral `0` (log entry 14). -/
def tableLine (nbits w : Nat) : List Byte :=
  match decode (wordBytes (nbits / 8) w) with
  | .error (.command .invalidInteger) =>
    if (wordBytes (nbits / 8) w).getLast? = some Ascii.sp then wordBytes (nbits / 8) w ++ [Ascii.zero]
    else wordBytes (nbits / 8) w
  | _ => wordBytes (nbits / 8) w

/-- The instruction the decoder reads from a word of spec/opcode_table.json. -/
def decodeTableWord (nbits w : Nat) : Option Instr :=
  match decode (tableLine nbits w) with
  | .ok i => some i
  | .error _ => none

end Sys2Proof
end

