-- ==== Sys2Proof/Machine/Operands.lean ====
section
/-! DEFINITION. What an operand is turned into before it is stored or answered: the drive code of a speed
(spec/42_motor_driver.md R131), the stored form of a compare value (R133), the physical direction and
the truth value of a `set` value (R132, R134, R138), and the width-extended readback (spec/45_commands.md R236). -/

namespace Sys2Proof.Machine

/-- `fwd(s) = 2*s if s > 0 else 0` (R131), computed exactly and then narrowed. -/
def fwdCode (s : I8) : Byte := if 0 < s.toInt then BitVec.ofInt 8 (2 * s.toInt) else 0

/-- `rev(s) = 2*(-s) - 1 if s < 0 else 0` (R131), computed exactly and then narrowed. -/
def revCode (s : I8) : Byte := if s.toInt < 0 then BitVec.ofInt 8 (2 * (-s.toInt) - 1) else 0

/-- `d <- max(fwd(s), rev(s))`, the drive code `code(s)` (R131, R134). -/
def driveCode (s : I8) : Byte := if (fwdCode s).toNat < (revCode s).toNat then revCode s else fwdCode s

/-- `enc(d)` (R133): the stored compare value of a drive code under `CoastingPWM`. -/
def encDuty (coastInvert : Bool) (d : Byte) : Byte := if coastInvert then 255 - d else d

/-- `dec(e)` (R133): the drive code a stored compare value means. -/
def decDuty (coastInvert : Bool) (e : Byte) : Byte := if coastInvert then 255 - e else e

/-- `DIRF[m]` after `setSpeed(m, s)` (R134): the pins follow the sign; a zero speed leaves them (D12). -/
def direction (sign : SignConv) (s : I8) (dirf : Bool) : Bool :=
  if 0 < s.toInt then decide (sign = .normal)
  else if s.toInt < 0 then decide (sign = .inverted)
  else dirf

/-- `b = (VALUE ≠ 0)` (R138, D10). -/
def truth (v : I8) : Bool := decide (v ≠ 0)

/-- `1` if the bit holds, else `0`: a `bool` returned as `u8` (R143). -/
def boolByte (b : Bool) : Byte := if b then 1 else 0

end Sys2Proof.Machine
end

