-- ==== Sys2Proof/Machine/State.lean ====
section
/-! DEFINITION. The state of RoAC-MDF as plain data: every element of spec/10_state.md R22 to R28, the host's
input stream `IN` (spec/43_line_input.md R160, R167), the mark of refused steps (spec/60_exceptions.md R269), the run's
parameters, and the model's own schedule of turns (which agent moves next, spec/20_memory.md R68) and queue of HOST's
boot operations. Also the reset state (R33, spec/70_reset_and_hazards.md R280 to R284), the refusals and the faults. -/

namespace Sys2Proof.Machine

/-- The line buffer's contents: (offset, byte) pairs in one canonical form, see `Memory.wf`. -/
abbrev Memory := List Host.Cell

/-- What an offset of the line buffer that is not listed reads as. R33 leaves `LB` unspecified after reset and no
rule reads a byte no rule has written; DESIGN CHOICE, log entry 3. -/
def Memory.unlisted : Byte := 0

/-- The canonical form: offsets strictly rise, no listed byte equals what an unlisted offset reads as. -/
abbrev Memory.wf (m : Memory) : Prop :=
  m.Pairwise (fun x y => x.1 < y.1) ∧ ∀ c ∈ m, c.2 ≠ Memory.unlisted

/-- A motor's compare registers under `BrakingPWM` (R22): `DUTY_F[m]`, `DUTY_R[m]`. -/
structure BrakingRegs where
  dutyF : Byte
  dutyR : Byte
  deriving DecidableEq, Repr

/-- A motor's registers under `CoastingPWM` (R23): `DUTY_E[m]`, `DIRF[m]`, `HIZ[m]`. -/
structure CoastingRegs where
  dutyE : Byte
  dirf : Bool
  hiz : Bool
  deriving DecidableEq, Repr

/-- The Motor Driver's registers. Which alternative holds IS the strategy of the build: the registers of the other
strategy "do not exist under this strategy" (R22, R23). -/
inductive Drive where
  | braking (regs : PerMotor BrakingRegs)
  | coasting (regs : PerMotor CoastingRegs)
  deriving DecidableEq, Repr

/-- The four agents of R6. -/
inductive Agent where
  | fg
  | isr
  | adc
  | host
  deriving DecidableEq, Repr

/-- The refusals: the host-contract violations of R269, each under its own name, and the host's own. A meaning answers
one; `step` keeps it as a mark on the whole state and goes on (R10, R269). -/
inductive Refusal where
  /-- Raised by `exec` for an instruction that has no meaning yet (none in this model). Safe. -/
  | notModelled (mnemonic : String)
  /-- Raised by `BOOT_CONNECT` a second time or after `BOOTED` (R110, R269). Safe. -/
  | bootConnect
  /-- Raised by `BOOT_ARM` before `BOOT_CONNECT`, a second time, or after `BOOTED` (R111, R269). Safe. -/
  | bootArm
  /-- Raised by `BOOT_ENABLE` after `BOOTED` (R269). Safe. -/
  | bootEnable
  /-- Raised by `BOOT_DONE` before `BOOT_ARM` or a second time (R269, R283). Safe. -/
  | bootDone
  /-- Raised by `EV_ADC_DONE` for a draw outside `0..2^ADC_BITS - 1` (R112, R269). Safe. -/
  | adcDraw (a : U16)
  deriving DecidableEq, Repr

/-- A boot operation HOST takes (R237, R284). -/
inductive BootOp where
  | connect
  | arm
  | enable (m : Motor) (e : Bool)
  | done
  deriving DecidableEq, Repr

/-- One turn: which agent moves and what the outside world chose for the move. -/
inductive Turn where
  /-- FG takes its `EV_RX_BYTE` step, on the byte at the head of `IN` (R160). -/
  | fg
  /-- ISR runs the completion handler (R113). -/
  | isr
  /-- ADC finishes the conversion in flight, with the draw `a` (R112). -/
  | adc (a : U16)
  /-- HOST takes the next operation of its boot sequence (R282, R284). -/
  | boot
  /-- HOST appends a byte to `IN` (R167). -/
  | send (b : Byte)
  /-- HOST removes the first byte of `TXQ` (R167). -/
  | take
  /-- Power-on reset (R280). -/
  | powerOn
  deriving DecidableEq, Repr

/-- The whole state. -/
structure State where
  /-- The parameters of R7 and R34, which no step writes. -/
  cfg : Config
  /-- `DUTY_F`, `DUTY_R` (R22) or `DUTY_E`, `DIRF`, `HIZ` (R23). -/
  drive : Drive
  /-- `EN[m]` (R22, R23). -/
  en : PerMotor Bool
  /-- `SAMPLE[m]` (R26). -/
  sample : PerMotor U16
  /-- `NEXTCH` (R27). -/
  nextCh : Motor
  /-- `ADC_SEL` (R27). -/
  adcSel : Motor
  /-- `ADC_BUSY` (R27). -/
  adcBusy : Bool
  /-- `ADC_RESULT` (R27). -/
  adcResult : U16
  /-- `IRQ_PENDING` (R27). -/
  irqPending : Bool
  /-- `IRQ_EN` (R27). -/
  irqEn : Bool
  /-- `ARMED` (R27). -/
  armed : Bool
  /-- `LB` (R28, R60). -/
  lb : Memory
  /-- `LBLEN` (R28). -/
  lblen : Nat
  /-- `TXQ`, first byte first (R28). -/
  txq : List Byte
  /-- `BOOTED` (R28). -/
  booted : Bool
  /-- `IN`, HOST's input stream, first byte first (R160, R167). -/
  inq : List Byte
  /-- HOST's boot operations to come, first operation first (R282, R284); the model's own field, log entry 21. -/
  bootq : List BootOp
  /-- The refused steps so far, oldest first: the mark of R10 and R269 on the whole state; log entry 18. -/
  marks : List Refusal
  /-- The model's own field (log entry 1): the turns to come, first turn first. -/
  sched : List Turn
  deriving DecidableEq, Repr

/-- `STRATEGY` (R130). -/
def State.strategy (s : State) : Strategy :=
  match s.drive with
  | .braking _ => .brakingPWM
  | .coasting _ => .coastingPWM

/-- Why a step that is asked for does not happen. -/
inductive Fault where
  /-- Raised by an event's meaning when the event is not enabled: the "no step" outcome of R10. Safe: nothing
  happens, and `step` turns it into an idle turn of that agent. -/
  | noStep (a : Agent)
  /-- Raised by the line buffer's accessors for an offset at or above `LINE_CAP`, which does not exist (R60).
  Safe: the model stops. No state that meets the invariant raises it. -/
  | lineBufferOffset (i : Nat)
  deriving DecidableEq, Repr

/-- The boot sequence HOST performs after a reset (R284). -/
def bootOps (c : Config) : List BootOp :=
  [.connect, .arm] ++ (if c.bootEnMotors then [.enable .m1 true, .enable .m2 true] else []) ++ [.done]

/-- The Motor Driver's registers after reset (R33): the state `setSpeed(m, 0)` gives, direction forward, no Hi-Z. -/
def Drive.reset (c : Config) : Strategy → Drive
  | .brakingPWM => .braking { m1 := { dutyF := 0, dutyR := 0 }, m2 := { dutyF := 0, dutyR := 0 } }
  | .coastingPWM =>
    .coasting
      { m1 := { dutyE := encDuty c.coastInvert 0, dirf := true, hiz := false }
        m2 := { dutyE := encDuty c.coastInvert 0, dirf := true, hiz := false } }

/-- The state a reset leaves (R33, R280): every element at its value of R33, HOST's boot sequence before it (R282), `IN`
and the turns to come as they are. `ADC_SEL`, `ADC_RESULT` and `LB` are unspecified there: `M1`, 0 and nothing listed
(log entry 3). -/
def State.atReset (st : Strategy) (c : Config) (inq : List Byte) (sched : List Turn) : State where
  cfg := c
  drive := Drive.reset c st
  en := { m1 := false, m2 := false }
  sample := { m1 := c.sampleReset, m2 := c.sampleReset }
  nextCh := .m1
  adcSel := .m1
  adcBusy := false
  adcResult := 0
  irqPending := false
  irqEn := false
  armed := false
  lb := []
  lblen := 0
  txq := []
  booted := false
  inq := inq
  bootq := bootOps c
  marks := []
  sched := sched

/-- The machine right after power-on under any strategy and parameters, with a turn scheduled for each operation of the
boot sequence (R282, R284; log entry 1). -/
def State.resetWith (st : Strategy) (c : Config) : State :=
  State.atReset st c [] (List.replicate (bootOps c).length .boot)

/-- The machine right after reset, with the parameters of R7. `STRATEGY` is OPEN there: `BrakingPWM` is the
model's choice for this one constant (log entry 2). -/
def State.reset : State := State.resetWith .brakingPWM Config.default

end Sys2Proof.Machine
end

