-- ==== Sys2Proof/Machine/Flags.lean ====
section
/-! DEFINITION. RoAC-MDF has no condition codes and no arithmetic flags (spec/10_state.md R29). Its flags are the
state bits of R29; this file holds every condition a rule computes from them: when an event is enabled
(R112, R113, R160) and what a boot operation requires (R110, R111, R283, spec/60_exceptions.md R269). -/

namespace Sys2Proof.Machine

/-- `EV_ADC_DONE` is enabled when a conversion is in flight and none is pending (R112). -/
def adcEnabled (s : State) : Bool := s.adcBusy && !s.irqPending

/-- The draw of `EV_ADC_DONE` is a conversion result: `0 <= a <= 2^ADC_BITS - 1` (R112). -/
def adcInRange (c : Config) (a : U16) : Bool := decide (a.toNat < 2 ^ c.adcBits)

/-- The interrupt is taken when it is pending and connected (R113, R258). -/
def irqEnabled (s : State) : Bool := s.irqPending && s.irqEn

/-- `EV_RX_BYTE` is enabled when boot is done and `IN` is not empty (R160); the byte it takes is the head of `IN`. -/
def rxEnabled (b : Byte) (s : State) : Bool := s.booted && decide (s.inq.head? = some b)

/-- `BOOT_CONNECT` requires this (R110). -/
def connectAllowed (s : State) : Bool := !s.booted && !s.irqEn

/-- `BOOT_ARM` requires this (R111). -/
def armAllowed (s : State) : Bool := !s.booted && !s.armed && s.irqEn

/-- `BOOT_ENABLE` is refused after `BOOTED` (R269). -/
def enableAllowed (s : State) : Bool := !s.booted

/-- `BOOT_DONE` requires this (R283). -/
def doneAllowed (s : State) : Bool := !s.booted && s.armed

end Sys2Proof.Machine
end

