-- ==== Sys2Proof/Machine/Ops.lean ====
section
/-! DEFINITION. The named operations every meaning is written over: the line buffer's `MemRead` and `MemWrite`
(spec/20_memory.md R60), `emit` and the response bytes (spec/30_encoding.md R95 to R98), raising a command error
(spec/60_exceptions.md R252) and going back to wait for the next line (R256), and taking the one interrupt and
leaving it (R260, R261). -/

namespace Sys2Proof.Machine

/-! ### The line buffer -/

/-- The byte at an offset: the listed one, or what an unlisted offset reads as. -/
def Memory.read : Memory → Nat → Byte
  | [], _ => Memory.unlisted
  | c :: m, a => if c.1 = a then c.2 else Memory.read m a

/-- Write one byte and keep the canonical form: writing what an unlisted offset reads as removes the entry. -/
def Memory.write : Memory → Nat → Byte → Memory
  | [], a, b => if b = Memory.unlisted then [] else [(a, b)]
  | c :: m, a, b =>
    if a < c.1 then (if b = Memory.unlisted then c :: m else (a, b) :: c :: m)
    else if a = c.1 then (if b = Memory.unlisted then m else (a, b) :: m)
    else c :: Memory.write m a b

/-- Write a list of bytes at rising offsets. -/
def Memory.writeList : Memory → Nat → List Byte → Memory
  | m, _, [] => m
  | m, a, b :: l => Memory.writeList (Memory.write m a b) (a + 1) l

/-- `MemRead(LB + i, 1)` (R9, R60): an offset at or above `LINE_CAP` does not exist. -/
def memRead (s : State) (i : Nat) : Except Fault Byte :=
  if i < s.cfg.lineCap then .ok (Memory.read s.lb i) else .error (.lineBufferOffset i)

/-- `MemRead(LB + i, 1) ++ ...`, `n` bytes from offset `i` (R162). -/
def memReads (s : State) : Nat → Nat → Except Fault (List Byte)
  | _, 0 => .ok []
  | i, n + 1 =>
    match memRead s i with
    | .error f => .error f
    | .ok b =>
      match memReads s (i + 1) n with
      | .error f => .error f
      | .ok l => .ok (b :: l)

/-- The line `LB[0 .. LBLEN-1]` (R80, R162). -/
def currentLine (s : State) : Except Fault (List Byte) := memReads s 0 s.lblen

/-- `MemWrite(LB + LBLEN, 1, b); LBLEN <- LBLEN + 1` while there is room, else the byte is dropped (R160, R161, R165). -/
def acceptByte (b : Byte) (s : State) : State :=
  if s.lblen < s.cfg.lineCap then { s with lb := Memory.write s.lb s.lblen b, lblen := s.lblen + 1 } else s

/-- FG consumes the head of `IN` (R160). -/
def popIn (s : State) : State := { s with inq := s.inq.tail }

/-! ### Responses -/

/-- `HEX(v, w)` (R96): `w / 4` digits, or the same without leading zeros under `HEX_PAD = Minimal`. -/
def hex (pad : HexPad) (w v : Nat) : List Byte :=
  match pad with
  | .minimal => stripZeros (digitsFixed 16 (w / 4) v)
  | .fixed => digitsFixed 16 (w / 4) v

/-- CR LF, the end of every response (R99). -/
def crlf : List Byte := [0x0D, 0x0A]

/-- `value(v, w)`, the value response (R96): `0x`, the digits, CR LF. -/
def valueResponse (c : Config) (w v : Nat) : List Byte := [0x30, 0x78] ++ hex c.hexPad w v ++ crlf

/-- The invalid response, `Invalid command` CR LF (R97). -/
def invalidResponse : List Byte :=
  [0x49, 0x6E, 0x76, 0x61, 0x6C, 0x69, 0x64, 0x20, 0x63, 0x6F, 0x6D, 0x6D, 0x61, 0x6E, 0x64, 0x0D, 0x0A]

/-- The prefix `Error: ` (R98). -/
def errorPrefix : List Byte := [0x45, 0x72, 0x72, 0x6F, 0x72, 0x3A, 0x20]

/-- `ERRTEXT(kind)` (R253). -/
def errText (e : ErrText) : ErrorKind → List Byte
  | .unknownToken _ => e.unknownToken
  | .missingParameter => e.missingParameter
  | .invalidInteger => e.invalidInteger
  | .notImplemented => e.notImplemented
  | .unsupportedAction => e.unsupportedAction

/-- `errorResponse` (R252, R255): an unknown command is answered by the invalid response, every other error by an
error line. -/
def errorResponse (c : Config) : ErrorKind → List Byte
  | .unknownToken .cmd => invalidResponse
  | k => errorPrefix ++ errText c.errText k ++ crlf

/-- `emit(s)`: append a byte string to `TXQ` (R9, R76). -/
def emit (r : List Byte) (s : State) : State := { s with txq := s.txq ++ r }

/-! ### Taking an exception and returning from it -/

/-- Error entry, `raise Error(kind)` (R9, R252): the response of the kind is appended to `TXQ` and nothing else is
written; there is no error register, no saved address and no retained error. -/
def raiseError (k : ErrorKind) (s : State) : State := emit (errorResponse s.cfg k) s

/-- The way back from a line, with or without an error (R162, R256): the interpreter waits for the next line, which
starts empty. -/
def awaitNextLine (s : State) : State := { s with lblen := 0 }

/-- Interrupt entry (R260): the handler runs as one atomic step when the interrupt is pending and connected; nothing
is saved, for there is no pc, no register file and no mode. Otherwise ISR has no step (R113). -/
def takeInterrupt (handler : State → State) (s : State) : Host.Outcome State Fault Refusal :=
  if irqEnabled s then .next (handler s) else .fault (.noStep .isr)

/-- Interrupt return (R258, R261): the handler's last act clears the pending bit; FG's state is as it was. -/
def returnFromInterrupt (s : State) : State := { s with irqPending := false }

end Sys2Proof.Machine
end

