-- ==== Sys2Proof/Machine/Boot.lean ====
section
/-! DEFINITION. A power-on and the end of boot (spec/70_reset_and_hazards.md R280, R282, R283). -/

namespace Sys2Proof.Machine

/-- `BOOT_DONE` (R283): from here on lines are admitted. -/
def execBootDone (s : State) : Host.Outcome State Fault Refusal :=
  if doneAllowed s then .next { s with booted := true } else .refused .bootDone

/-- A power-on reset (R280): every state element takes its value of spec/10_state.md R33 and HOST's next operations are
the boot sequence (R282, R284). `IN` is HOST's and the turns to come are the world's (log entry 16), the marks are no
element of R33 (log entry 18), and the build's strategy and parameters stay (R34, R130). -/
def powerOn (s : State) : State := { State.atReset s.strategy s.cfg s.inq s.sched with marks := s.marks }

end Sys2Proof.Machine
end

