-- ==== Sys2Proof/Machine/MotorDriver.lean ====
section
/-! DEFINITION. The Motor Driver (spec/42_motor_driver.md): `setSpeed`, `setEnable`, `setDisable`, `getSpeed`, the
disable readback, the mode selector, and the boot operation `BOOT_ENABLE`. Each is defined for both strategies. -/

namespace Sys2Proof.Machine

/-! ### Setters -/

/-- The registers `setSpeed(m, s)` leaves under `BrakingPWM` (R132); the sign convention swaps the pins. -/
def brakingSpeed (sign : SignConv) (s : I8) : BrakingRegs :=
  match sign with
  | .normal => { dutyF := fwdCode s, dutyR := revCode s }
  | .inverted => { dutyF := revCode s, dutyR := fwdCode s }

/-- The registers `setSpeed(m, s)` leaves under `CoastingPWM` (R134); `HIZ[m]` is not changed. -/
def coastingSpeed (coastInvert : Bool) (sign : SignConv) (s : I8) (r : CoastingRegs) : CoastingRegs :=
  { r with dutyE := encDuty coastInvert (driveCode s), dirf := direction sign s r.dirf }

/-- `setSpeed(m, v)` (R132, R134), one update. -/
def setSpeed (m : Motor) (v : I8) (s : State) : State :=
  match s.drive with
  | .braking r => { s with drive := .braking (r.set m (brakingSpeed (s.cfg.sign.get m) v)) }
  | .coasting r =>
    { s with drive := .coasting (r.set m (coastingSpeed s.cfg.coastInvert (s.cfg.sign.get m) v (r.get m))) }

/-- `setEnable(m, e)` (R136): writes `EN[m]` only. -/
def setEnable (m : Motor) (e : Bool) (s : State) : State := { s with en := s.en.set m e }

/-- `setDisable(m, b)`: `HIZ[m] <- b` under `CoastingPWM` (R138); under `BrakingPWM` there is no disable pin and it
writes no state (R139). It raises no error itself (R144): the dispatcher reports (`disableOrReport`). -/
def setDisable (m : Motor) (b : Bool) (s : State) : State :=
  match s.drive with
  | .braking _ => s
  | .coasting r => { s with drive := .coasting (r.set m { r.get m with hiz := b }) }

/-! ### Readback -/

/-- `getSpeed(m)` (R140, R142): the union of the two direction duties, or the stored, encoded value. -/
def getSpeed (m : Motor) (s : State) : Byte :=
  match s.drive with
  | .braking r => (r.get m).dutyF ||| (r.get m).dutyR
  | .coasting r => (r.get m).dutyE

/-- `getDisable(m)` (R143): 0 or 1 under `CoastingPWM`; there is none under `BrakingPWM`. -/
def getDisable (m : Motor) (s : State) : Option Byte :=
  match s.drive with
  | .braking _ => none
  | .coasting r => some (boolByte (r.get m).hiz)

/-! ### The mode selector (R145) -/

/-- The physical direction a bridge drives. -/
inductive Direction where
  | physFwd
  | physRev
  deriving DecidableEq, Repr

/-- The state of a driven bridge for the off-part of a PWM period. -/
inductive OffState where
  | brake
  | coast
  deriving DecidableEq, Repr

/-- The output mode of a motor (R145). -/
inductive Mode where
  | sleep
  | hiz
  | brake
  | coast
  | drive (dir : Direction) (d : Byte) (off : OffState)
  deriving DecidableEq, Repr

/-- A motor's mode from its `BrakingPWM` registers and its enable (R145). -/
def brakingMode (en : Bool) (r : BrakingRegs) : Mode :=
  if !en then .sleep
  else if 0 < r.dutyF.toNat then .drive .physFwd r.dutyF .brake
  else if 0 < r.dutyR.toNat then .drive .physRev r.dutyR .brake
  else .brake

/-- A motor's mode from its `CoastingPWM` registers and its enable (R145). `SLEEP` wins over `HIZ` (D17). -/
def coastingMode (coastInvert : Bool) (en : Bool) (r : CoastingRegs) : Mode :=
  if !en then .sleep
  else if r.hiz then .hiz
  else if decDuty coastInvert r.dutyE = 0 then .coast
  else .drive (if r.dirf then .physFwd else .physRev) (decDuty coastInvert r.dutyE) .coast

/-- `Mode(m)` (R145): a function of the state, with no state of its own. -/
def mode (m : Motor) (s : State) : Mode :=
  match s.drive with
  | .braking r => brakingMode (s.en.get m) (r.get m)
  | .coasting r => coastingMode s.cfg.coastInvert (s.en.get m) (r.get m)

/-- The part of a PWM period in which a mode drives the motor (R145, R146). `PWM_FRACTION` is OPEN: it is an argument,
and a claim may assume of it only that it is non-decreasing. -/
def Mode.onFraction (pwmFraction : Byte → Rat) : Mode → Rat
  | .drive _ d _ => pwmFraction d
  | .sleep => 0
  | .hiz => 0
  | .brake => 0
  | .coast => 0

/-! ### BOOT_ENABLE -/

/-- `BOOT_ENABLE(m, e)` (R136, R269). -/
def execBootEnable (m : Motor) (e : Bool) (s : State) : Host.Outcome State Fault Refusal :=
  if enableAllowed s then .next (setEnable m e s) else .refused .bootEnable

end Sys2Proof.Machine
end

