-- ==== Sys2Proof/Machine/Sampler.lean ====
section
/-! DEFINITION. The Feedback Sampler (spec/41_sampler.md): `BOOT_CONNECT`, `BOOT_ARM`, the ADC's completion, the
completion handler, and the foreground read `readLast`. -/

namespace Sys2Proof.Machine

/-- `readLast(m)` (R116): one atomic read of the whole 16-bit cell (spec/20_memory.md R70). -/
def readLast (m : Motor) (s : State) : U16 := s.sample.get m

/-- Reprogram the channel selector and trigger a conversion of that channel (R111, R113, R289). -/
def startConversion (ch : Motor) (s : State) : State := { s with nextCh := ch, adcSel := ch, adcBusy := true }

/-- `BOOT_CONNECT` (R110). -/
def execBootConnect (s : State) : Host.Outcome State Fault Refusal :=
  if connectAllowed s then .next { s with irqEn := true } else .refused .bootConnect

/-- `BOOT_ARM`, the source's `arm()` (R111). -/
def execBootArm (s : State) : Host.Outcome State Fault Refusal :=
  if armAllowed s then .next { startConversion .m1 s with armed := true } else .refused .bootArm

/-- `EV_ADC_DONE(a)` (R112): no step while no conversion is in flight or one is pending, a draw out of range is
refused, else the result is held and the completion is raised. -/
def execEvAdcDone (a : U16) (s : State) : Host.Outcome State Fault Refusal :=
  if adcEnabled s then
    if adcInRange s.cfg a then .next { s with adcResult := a, adcBusy := false, irqPending := true }
    else .refused (.adcDraw a)
  else .fault (.noStep .adc)

/-- The handler's body (R113): store for the channel just converted, then flip, reprogram and re-trigger. -/
def convComplete (s : State) : State :=
  returnFromInterrupt
    (startConversion s.nextCh.other { s with sample := s.sample.set s.nextCh s.adcResult })

/-- `ISR_CONV_COMPLETE` (R113), one atomic step. -/
def execIsrConvComplete (s : State) : Host.Outcome State Fault Refusal := takeInterrupt convComplete s

end Sys2Proof.Machine
end

