-- ==== Sys2Proof/Machine/GetCommands.lean ====
section
/-! DEFINITION. The ten `get` forms (spec/45_commands.md R212 to R221). None writes a state element but `TXQ`, and none
can stop. -/

namespace Sys2Proof.Machine

/-- Answer a speed readback, 8 bits wide (R212, R213). -/
def answerSpeed (m : Motor) (s : State) : State := emit (valueResponse s.cfg 8 (getSpeed m s).toNat) s

/-- Answer the disable readback, 8 bits wide, or report that this build has no disable pin (R214, R215). -/
def answerDisable (m : Motor) (s : State) : State :=
  match getDisable m s with
  | some v => emit (valueResponse s.cfg 8 v.toNat) s
  | none => raiseError .notImplemented s

/-- Answer the most recent sample, 16 bits wide (R220, R221). -/
def answerCurrent (m : Motor) (s : State) : State := emit (valueResponse s.cfg 16 (readLast m s).toNat) s

/-- `get m1speed` (R212). -/
def execGetM1speed (s : State) : Host.Outcome State Fault Refusal := .next (answerSpeed .m1 s)

/-- `get m2speed` (R213). -/
def execGetM2speed (s : State) : Host.Outcome State Fault Refusal := .next (answerSpeed .m2 s)

/-- `get m1disable` (R214). -/
def execGetM1disable (s : State) : Host.Outcome State Fault Refusal := .next (answerDisable .m1 s)

/-- `get m2disable` (R215). -/
def execGetM2disable (s : State) : Host.Outcome State Fault Refusal := .next (answerDisable .m2 s)

/-- `get led1` (R216). -/
def execGetLed1 (s : State) : Host.Outcome State Fault Refusal := .next (raiseError .notImplemented s)

/-- `get led2` (R217). -/
def execGetLed2 (s : State) : Host.Outcome State Fault Refusal := .next (raiseError .notImplemented s)

/-- `get led3` (R218). -/
def execGetLed3 (s : State) : Host.Outcome State Fault Refusal := .next (raiseError .notImplemented s)

/-- `get led4` (R219). -/
def execGetLed4 (s : State) : Host.Outcome State Fault Refusal := .next (raiseError .notImplemented s)

/-- `get m1current` (R220). -/
def execGetM1current (s : State) : Host.Outcome State Fault Refusal := .next (answerCurrent .m1 s)

/-- `get m2current` (R221). -/
def execGetM2current (s : State) : Host.Outcome State Fault Refusal := .next (answerCurrent .m2 s)

end Sys2Proof.Machine
end

