-- ==== Sys2Proof/Machine/SetCommands.lean ====
section
/-! DEFINITION. The ten `set` forms (spec/45_commands.md R222 to R231). A successful `set` is silent; the LED properties
are recognized but not implemented, the current properties are get-only. None can stop. -/

namespace Sys2Proof.Machine

/-- The dispatcher's choice for a disable (R224, R225): `setDisable(m, v ≠ 0)` under `CoastingPWM`, else it reports that
this build has no disable pin (R139). -/
def disableOrReport (m : Motor) (v : I8) (s : State) : State :=
  match s.strategy with
  | .coastingPWM => setDisable m (truth v) s
  | .brakingPWM => raiseError .notImplemented s

/-- `set m1speed <v>` (R222). -/
def execSetM1speed (v : I8) (s : State) : Host.Outcome State Fault Refusal := .next (setSpeed .m1 v s)

/-- `set m2speed <v>` (R223). -/
def execSetM2speed (v : I8) (s : State) : Host.Outcome State Fault Refusal := .next (setSpeed .m2 v s)

/-- `set m1disable <v>` (R224). -/
def execSetM1disable (v : I8) (s : State) : Host.Outcome State Fault Refusal := .next (disableOrReport .m1 v s)

/-- `set m2disable <v>` (R225). -/
def execSetM2disable (v : I8) (s : State) : Host.Outcome State Fault Refusal := .next (disableOrReport .m2 v s)

/-- `set led1 <v>` (R226): the value has parsed and is not used. -/
def execSetLed1 (_v : I8) (s : State) : Host.Outcome State Fault Refusal := .next (raiseError .notImplemented s)

/-- `set led2 <v>` (R227): the value has parsed and is not used. -/
def execSetLed2 (_v : I8) (s : State) : Host.Outcome State Fault Refusal := .next (raiseError .notImplemented s)

/-- `set led3 <v>` (R228): the value has parsed and is not used. -/
def execSetLed3 (_v : I8) (s : State) : Host.Outcome State Fault Refusal := .next (raiseError .notImplemented s)

/-- `set led4 <v>` (R229): the value has parsed and is not used. -/
def execSetLed4 (_v : I8) (s : State) : Host.Outcome State Fault Refusal := .next (raiseError .notImplemented s)

/-- `set m1current <v>` (R230): the value has parsed and is not used. -/
def execSetM1current (_v : I8) (s : State) : Host.Outcome State Fault Refusal := .next (raiseError .unsupportedAction s)

/-- `set m2current <v>` (R231): the value has parsed and is not used. -/
def execSetM2current (_v : I8) (s : State) : Host.Outcome State Fault Refusal := .next (raiseError .unsupportedAction s)

end Sys2Proof.Machine
end

