-- ==== Sys2Proof/Machine/LineInput.lean ====
section
/-! DEFINITION. Line input and the Command Interpreter (spec/43_line_input.md, spec/45_commands.md R210): `dispatch`,
`ProcessLine` and the event `EV_RX_BYTE`. -/

namespace Sys2Proof.Machine

/-- `dispatch(cmd)` (R210): the command rule R212 + PROP of a `Get`, R222 + PROP of a `Set`. -/
def dispatch (c : ParsedCommand) (s : State) : Host.Outcome State Fault Refusal :=
  match c with
  | .get .m1Speed => execGetM1speed s
  | .get .m2Speed => execGetM2speed s
  | .get .m1Disable => execGetM1disable s
  | .get .m2Disable => execGetM2disable s
  | .get .led1 => execGetLed1 s
  | .get .led2 => execGetLed2 s
  | .get .led3 => execGetLed3 s
  | .get .led4 => execGetLed4 s
  | .get .m1Current => execGetM1current s
  | .get .m2Current => execGetM2current s
  | .set .m1Speed v => execSetM1speed v s
  | .set .m2Speed v => execSetM2speed v s
  | .set .m1Disable v => execSetM1disable v s
  | .set .m2Disable v => execSetM2disable v s
  | .set .led1 v => execSetLed1 v s
  | .set .led2 v => execSetLed2 v s
  | .set .led3 v => execSetLed3 v s
  | .set .led4 v => execSetLed4 v s
  | .set .m1Current v => execSetM1current v s
  | .set .m2Current v => execSetM2current v s

/-- The rest of `ProcessLine` once the line's bytes are read: parse, then dispatch or raise the parse error (R162). -/
def interpret (L : List Byte) (s : State) : Host.Outcome State Fault Refusal :=
  match parseLine L with
  | .ok c => dispatch c s
  | .error k => .next (raiseError k s)

/-- `LBLEN <- 0` at the end of a line's step (R162). -/
def endLine (o : Host.Outcome State Fault Refusal) : Host.Outcome State Fault Refusal :=
  match o with
  | .next s => .next (awaitNextLine s)
  | .fault f => .fault f
  | .refused r => .refused r

/-- `ProcessLine()` (R162): an empty line does nothing (R164). -/
def processLine (s : State) : Host.Outcome State Fault Refusal :=
  if s.lblen = 0 then .next (awaitNextLine s)
  else
    match currentLine s with
    | .error f => .fault f
    | .ok L => endLine (interpret L s)

/-- What the line assembler does with a byte (R160). -/
inductive ByteClass where
  | terminator
  | printable
  | dropped
  deriving DecidableEq, Repr

/-- CR or LF ends the line, 0x20..0x7E is accepted, every other byte is dropped (R160, R163). -/
def classify (b : Byte) : ByteClass :=
  if b = Ascii.cr ∨ b = Ascii.lf then .terminator
  else if 0x20 ≤ b.toNat ∧ b.toNat ≤ 0x7E then .printable
  else .dropped

/-- What FG does with the byte it has taken from `IN` (R160). -/
def receive (b : Byte) (s : State) : Host.Outcome State Fault Refusal :=
  match classify b with
  | .terminator => processLine s
  | .printable => .next (acceptByte b s)
  | .dropped => .next s

/-- `EV_RX_BYTE(b)` (R160): no step before boot is done or while `b` is not at the head of `IN` (R166). -/
def execEvRxByte (b : Byte) (s : State) : Host.Outcome State Fault Refusal :=
  if rxEnabled b s then receive b (popIn s) else .fault (.noStep .fg)

end Sys2Proof.Machine
end

