-- ==== Sys2Proof/Machine/Dispatch.lean ====
section
/-! DEFINITION. One arm per constructor of `Instr`: the meaning of each instruction (spec/opcode_table.json). -/

namespace Sys2Proof.Machine

def exec (i : Instr) (s : State) : Host.Outcome State Fault Refusal :=
  match i with
  | .getM1speed _ => Sys2Proof.Machine.execGetM1speed s
  | .getM2speed _ => Sys2Proof.Machine.execGetM2speed s
  | .getM1disable _ => Sys2Proof.Machine.execGetM1disable s
  | .getM2disable _ => Sys2Proof.Machine.execGetM2disable s
  | .getLed1 _ => Sys2Proof.Machine.execGetLed1 s
  | .getLed2 _ => Sys2Proof.Machine.execGetLed2 s
  | .getLed3 _ => Sys2Proof.Machine.execGetLed3 s
  | .getLed4 _ => Sys2Proof.Machine.execGetLed4 s
  | .getM1current _ => Sys2Proof.Machine.execGetM1current s
  | .getM2current _ => Sys2Proof.Machine.execGetM2current s
  | .setM1speed v => Sys2Proof.Machine.execSetM1speed v s
  | .setM2speed v => Sys2Proof.Machine.execSetM2speed v s
  | .setM1disable v => Sys2Proof.Machine.execSetM1disable v s
  | .setM2disable v => Sys2Proof.Machine.execSetM2disable v s
  | .setLed1 v => Sys2Proof.Machine.execSetLed1 v s
  | .setLed2 v => Sys2Proof.Machine.execSetLed2 v s
  | .setLed3 v => Sys2Proof.Machine.execSetLed3 v s
  | .setLed4 v => Sys2Proof.Machine.execSetLed4 v s
  | .setM1current v => Sys2Proof.Machine.execSetM1current v s
  | .setM2current v => Sys2Proof.Machine.execSetM2current v s
  | .evRxByte b => Sys2Proof.Machine.execEvRxByte b s
  | .evAdcDone a => Sys2Proof.Machine.execEvAdcDone a s
  | .isrConvComplete => Sys2Proof.Machine.execIsrConvComplete s
  | .bootConnect => Sys2Proof.Machine.execBootConnect s
  | .bootArm => Sys2Proof.Machine.execBootArm s
  | .bootEnable m e => Sys2Proof.Machine.execBootEnable m e s
  | .bootDone => Sys2Proof.Machine.execBootDone s

end Sys2Proof.Machine
end

