-- ==== Sys2Proof/Machine/Fetch.lean ====
section
/-! DEFINITION. What a turn does (spec/00_scope.md R6, R10, spec/20_memory.md R68): RoAC-MDF has no program counter
(spec/10_state.md R21); the next instruction is the next turn's event, FG's being the byte at the head of `IN`.
Here also are HOST's two acts on the serial link (spec/43_line_input.md R167) and the placing of a line. -/

namespace Sys2Proof.Machine

/-- The instruction of a boot operation (R284). -/
def bootInstr : BootOp → Instr
  | .connect => .bootConnect
  | .arm => .bootArm
  | .enable m e => .bootEnable m e
  | .done => .bootDone

/-- The instruction a turn's agent takes (R3): FG has none while `IN` is empty (R160), HOST's boot turn has none once the
boot sequence is over (R284), and HOST's acts on the serial link and the power-on are no instructions. -/
def fetch (t : Turn) (s : State) : Option Instr :=
  match t with
  | .fg => s.inq.head?.map .evRxByte
  | .isr => some .isrConvComplete
  | .adc a => some (.evAdcDone a)
  | .boot => s.bootq.head?.map bootInstr
  | .send _ => none
  | .take => none
  | .powerOn => none

/-- What the world does in a turn that runs no instruction: HOST appends a byte to `IN` or removes the first byte of
`TXQ` (R167), or power comes on (R280). -/
def worldTurn (t : Turn) (s : State) : State :=
  match t with
  | .send b => { s with inq := s.inq ++ [b] }
  | .take => { s with txq := s.txq.tail }
  | .powerOn => powerOn s
  | .fg => s
  | .isr => s
  | .adc _ => s
  | .boot => s

/-- HOST's boot turn uses up the operation it takes; every other turn leaves the state to its instruction. -/
def takeTurn (t : Turn) (s : State) : State :=
  match t with
  | .boot => { s with bootq := s.bootq.tail }
  | .fg => s
  | .isr => s
  | .adc _ => s
  | .send _ => s
  | .take => s
  | .powerOn => s

/-- A refused step is kept as a mark on the whole state and is never final (R10, R269): nothing else changes. -/
def markRefused (r : Refusal) (s : State) : State := { s with marks := s.marks ++ [r] }

/-- How a turn ends in the state `s`, given what its instruction answers: an agent that has no step passes its turn
(R10, R68), a refusal is marked, and the others go on. -/
def settle (s : State) (o : Host.Outcome State Fault Refusal) : Host.Outcome State Fault Refusal :=
  match o with
  | .next t => .next t
  | .fault (.noStep _) => .next s
  | .fault (.lineBufferOffset i) => .fault (.lineBufferOffset i)
  | .refused r => .next (markRefused r s)

/-- One turn, in the state from which it has been taken off the schedule. -/
def runTurn (t : Turn) (s : State) : Host.Outcome State Fault Refusal :=
  match fetch t s with
  | some i => settle (takeTurn t s) (exec i (takeTurn t s))
  | none => .next (worldTurn t s)

/-- Place a complete line so that FG's next turn ends it: its bytes in `LB`, a CR at the head of `IN`, lines admitted, and
the turn FG's. A line over the capacity is cut as R165 cuts it. -/
def placeLine (L : List Byte) (s : State) : State :=
  { s with
    lb := Memory.writeList s.lb 0 (L.take s.cfg.lineCap)
    lblen := (L.take s.cfg.lineCap).length
    booted := true
    inq := Ascii.cr :: s.inq
    sched := .fg :: s.sched }

end Sys2Proof.Machine
end

