-- ==== Sys2Proof/Machine/Step.lean ====
section
/-! DEFINITION. One step: the next turn of the schedule is taken and run (spec/20_memory.md R68). With no turn
scheduled nothing happens. -/

namespace Sys2Proof.Machine

/-- One atomic step of one agent (R68). -/
def step (s : State) : Host.Outcome State Fault Refusal :=
  match s.sched with
  | [] => .next s
  | t :: rest => runTurn t { s with sched := rest }

/-- `s` with the line of an opcode-table word placed so that the very next step ends it and runs its command. An
event's row has no word (R94): what its zero bits place is an empty line, and `State.sched` runs events (log entry 14). -/
def State.withFetchWord (s : State) (nbits w : Nat) : State := placeLine (tableLine nbits w) s

end Sys2Proof.Machine
end

