-- ==== Sys2Proof/Safety.lean ====
section
/-! DEFINITION. The terms claims are stated in: the invariant of a run, the parts of the state each unit owns
(spec/10_state.md R25, spec/20_memory.md R69), the line grammar of spec/30_encoding.md R81 written without the
parser, and runs of the machine. -/

namespace Sys2Proof

/-! ### The line grammar, without the parser -/

/-- `Σ (d_i - 0x30) · 10^(j-i)` (R85), the place-value sum of a digit string. -/
def decimalValue : List Byte → Nat
  | [] => 0
  | d :: l => (d.toNat - 0x30) * 10 ^ l.length + decimalValue l

/-- `V` is a VALUE field with value `v`: an optional dash, then one or more digits, in range (R81, R85). -/
def IsNumeral (V : List Byte) (v : I8) : Prop :=
  ∃ (neg : Bool) (ds : List Byte),
    ds ≠ [] ∧ (∀ d ∈ ds, Ascii.isDigit d = true) ∧ V = (if neg then Ascii.dash :: ds else ds) ∧
      v.toInt = (if neg then -(decimalValue ds : Int) else (decimalValue ds : Int))

/-- A command line's instruction, as opposed to an event. -/
def Instr.isCommand (i : Instr) : Bool := decide (i.format ≠ .event)

/-- The value of a string of hexadecimal digit bytes, `0`..`9` and `A`..`F` (R96); `none` at any other byte. -/
def hexValue (acc : Nat) : List Byte → Option Nat
  | [] => some acc
  | d :: l =>
    if 0x30 ≤ d.toNat ∧ d.toNat ≤ 0x39 then hexValue (16 * acc + (d.toNat - 0x30)) l
    else if 0x41 ≤ d.toNat ∧ d.toNat ≤ 0x46 then hexValue (16 * acc + (d.toNat - 0x37)) l
    else none

/-- `r` is one response (R95, R99): a printable text that is not empty, then the one CR LF that ends it. -/
def OneResponse (r : List Byte) : Prop :=
  ∃ body, body ≠ [] ∧ r = body ++ [0x0D, 0x0A] ∧ ∀ b ∈ body, isPrintable b = true

namespace Machine

/-! ### The units' own state -/

/-- The Motor Driver's state (R22, R23, R25). -/
structure MotorPart where
  drive : Drive
  en : PerMotor Bool
  deriving DecidableEq, Repr

/-- The Feedback Sampler's state (R26, R27). -/
structure SamplerPart where
  sample : PerMotor U16
  nextCh : Motor
  adcSel : Motor
  adcBusy : Bool
  adcResult : U16
  irqPending : Bool
  irqEn : Bool
  armed : Bool
  deriving DecidableEq, Repr

/-- The Command Interpreter's state and the serial link's queues (R28, R160). -/
structure LinePart where
  lb : Memory
  lblen : Nat
  txq : List Byte
  booted : Bool
  inq : List Byte
  deriving DecidableEq, Repr

/-- The Motor Driver's part of a state. -/
def State.motorPart (s : State) : MotorPart := { drive := s.drive, en := s.en }

/-- The sampler's part of a state. -/
def State.samplerPart (s : State) : SamplerPart :=
  { sample := s.sample, nextCh := s.nextCh, adcSel := s.adcSel, adcBusy := s.adcBusy, adcResult := s.adcResult
    irqPending := s.irqPending, irqEn := s.irqEn, armed := s.armed }

/-- The interpreter's part of a state. -/
def State.linePart (s : State) : LinePart :=
  { lb := s.lb, lblen := s.lblen, txq := s.txq, booted := s.booted, inq := s.inq }

/-! ### The invariant -/

/-- At most one direction duty of a motor is non-zero (R24); trivial under `CoastingPWM`. -/
def OneDirection (d : Drive) : Prop :=
  match d with
  | .braking r => ∀ m : Motor, (r.get m).dutyF = 0 ∨ (r.get m).dutyR = 0
  | .coasting _ => True

/-- What holds of every state a run reaches, whatever the turns. -/
structure RunInv (s : State) : Prop where
  /-- The parameters are ones R7 admits. -/
  cfg_wf : s.cfg.wf = true
  /-- The line buffer keeps its canonical form. -/
  lb_wf : Memory.wf s.lb
  /-- The line buffer has `LINE_CAP` bytes (R28, R60). -/
  lb_in : ∀ c ∈ s.lb, c.1 < s.cfg.lineCap
  /-- `LBLEN` is 0..`LINE_CAP` (R28). -/
  lblen_le : s.lblen ≤ s.cfg.lineCap
  /-- Every byte of a line is printable (R80). -/
  line_printable : ∀ i, i < s.lblen → isPrintable (Memory.read s.lb i) = true
  /-- Mutual exclusion of the direction duties (R24). -/
  one_direction : OneDirection s.drive
  /-- Samples lie in `[0, 2^ADC_BITS - 1]` (R26). -/
  samples_in_range : ∀ m : Motor, (s.sample.get m).toNat < 2 ^ s.cfg.adcBits
  /-- So does the result register (R112). -/
  result_in_range : s.adcResult.toNat < 2 ^ s.cfg.adcBits
  /-- Once armed, a conversion is in flight or its completion is pending: no idle gaps (R114). -/
  armed_runs : s.armed = (s.adcBusy || s.irqPending)
  /-- Never both: at most one conversion at a time (R258). -/
  one_conversion : (s.adcBusy && s.irqPending) = false
  /-- The conversion in flight or just finished is of channel `NEXTCH` (R114). -/
  channel : (s.adcBusy || s.irqPending) = true → s.adcSel = s.nextCh
  /-- Connect comes before arm (R285). -/
  armed_connected : s.armed = true → s.irqEn = true
  /-- Arm comes before the end of boot (R283). -/
  booted_armed : s.booted = true → s.armed = true
  /-- Response bytes are printable, CR or LF (R96 to R99). -/
  txq_text : ∀ b ∈ s.txq, isPrintable b = true ∨ b = Ascii.cr ∨ b = Ascii.lf

/-- A run that does not stop for `n` steps: each answers a next state (R10, R269: a refusal stops none). -/
def SafeFor (n : Nat) (s : State) : Prop := ∃ t, core.run n s = .next t

/-! ### Sampler runs -/

/-- One completion and its handler for each draw, in order (R112, R113). -/
def conversions : List U16 → State → Host.Outcome State Fault Refusal
  | [], s => .next s
  | a :: l, s =>
    match exec (.evAdcDone a) s with
    | .next t =>
      match exec .isrConvComplete t with
      | .next u => conversions l u
      | .fault f => .fault f
      | .refused r => .refused r
    | .fault f => .fault f
    | .refused r => .refused r

/-- Storing the draws into the two cells in turn, the first into `SAMPLE[ch]` (R114). -/
def storeInTurn (ch : Motor) (x : PerMotor U16) : List U16 → PerMotor U16
  | [] => x
  | a :: l => storeInTurn ch.other (x.set ch a) l

/-- The channel after `n` handler steps that began with `ch` (R114). -/
def channelAfter (ch : Motor) (n : Nat) : Motor := if n % 2 = 0 then ch else ch.other

/-! ### Line runs -/

/-- `n` FG turns. -/
def fgTurns (n : Nat) : List Turn := List.replicate n .fg

end Machine

end Sys2Proof
end

