-- ==== Sys2Proof/Certificates/Slice0/Obligations.lean ====
section
/-! DEFINITION. The statements for the provers, from the numbered rules of spec/. Each docstring names the rule or the
section it formalises, and says where a clause is the model's own choice. -/

open Sys2Proof Sys2Proof.Machine

/-! ### Encoding -/

/-- Decoding the line of a well-formed command gives the command back with every field, and the line is one the
line assembler can hold: within `LINE_CAP` and printable. Only events have no line (R80, R82, R85, R94). -/
def Obligations.DecodeOfEncodeIsTheInstruction : Prop :=
  ∀ (c : Config) (i : Instr), i.wf c = true →
    match encode i with
    | some L => decode L = .ok i ∧ L.length ≤ c.lineCap ∧ ∀ b ∈ L, isPrintable b = true
    | none => i.isCommand = false

/-- R81: a line decodes to a command exactly when it matches the grammar; the empty line decodes to nothing, and
every other line is one of the error forms of R87 to R90. -/
def Obligations.LinesDecodeExactlyByTheGrammar : Prop :=
  (∀ (L : List Byte) (i : Instr),
    decode L = .ok i ↔
      ((∃ p t, i = Instr.ofGet p t ∧ L = cmdGet ++ Ascii.sp :: (p.name ++ tailBytes t)) ∨
        (∃ p v V, i = Instr.ofSet p v ∧ IsNumeral V v ∧ L = cmdSet ++ Ascii.sp :: (p.name ++ Ascii.sp :: V)))) ∧
  decode [] = .error .emptyLine ∧
  ∀ L : List Byte, L ≠ [] →
    (∃ i, decode L = .ok i) ∨ decode L = .error (.command (.unknownToken .cmd)) ∨
      decode L = .error (.command (.unknownToken .prop)) ∨ decode L = .error (.command .missingParameter) ∨
      decode L = .error (.command .invalidInteger)

/-- A few lines written out from the byte tables of R82 to R85 decode to the commands they stand for. -/
def Obligations.SpecLinesDecode : Prop :=
  -- get m1speed
  decode [0x67, 0x65, 0x74, 0x20, 0x6D, 0x31, 0x73, 0x70, 0x65, 0x65, 0x64] = .ok (.getM1speed none) ∧
  -- get led3, with a tail "x"
  decode [0x67, 0x65, 0x74, 0x20, 0x6C, 0x65, 0x64, 0x33, 0x20, 0x78] = .ok (.getLed3 (some [0x78])) ∧
  -- set m1speed -128
  decode [0x73, 0x65, 0x74, 0x20, 0x6D, 0x31, 0x73, 0x70, 0x65, 0x65, 0x64, 0x20, 0x2D, 0x31, 0x32, 0x38]
    = .ok (.setM1speed 0x80) ∧
  -- set m2current 007
  decode [0x73, 0x65, 0x74, 0x20, 0x6D, 0x32, 0x63, 0x75, 0x72, 0x72, 0x65, 0x6E, 0x74, 0x20, 0x30, 0x30, 0x37]
    = .ok (.setM2current 7) ∧
  -- set m1speed 128
  decode [0x73, 0x65, 0x74, 0x20, 0x6D, 0x31, 0x73, 0x70, 0x65, 0x65, 0x64, 0x20, 0x31, 0x32, 0x38]
    = .error (.command .invalidInteger)

/-- R87: a line whose bytes before the first SP (or the whole line) are neither `get` nor `set` decodes to no command
and is answered by the invalid response; nothing else is written. -/
def Obligations.UnknownCommandIsAnsweredInvalid : Prop :=
  ∀ (C : List Byte) (r : Option (List Byte)) (s : State),
    Ascii.sp ∉ C → C ≠ cmdGet → C ≠ cmdSet →
      (∀ i, decode (C ++ tailBytes r) ≠ .ok i) ∧
      interpret (C ++ tailBytes r) s = .next { s with txq := s.txq ++ invalidResponse }

/-- R88: after `get` or `set`, a non-empty PROP token that is no name of R84 decodes to no command and is answered by
the `UnknownToken` error line; nothing else is written. -/
def Obligations.UnknownPropertyIsAnsweredUnknownToken : Prop :=
  ∀ (C T : List Byte) (r : Option (List Byte)) (s : State),
    C = cmdGet ∨ C = cmdSet → T ≠ [] → Ascii.sp ∉ T → (∀ p : PropertyId, T ≠ p.name) →
      (∀ i, decode (C ++ Ascii.sp :: (T ++ tailBytes r)) ≠ .ok i) ∧
      interpret (C ++ Ascii.sp :: (T ++ tailBytes r)) s
        = .next { s with txq := s.txq ++ (errorPrefix ++ s.cfg.errText.unknownToken ++ crlf) }

/-- R89: no SP after the command, an empty PROP token, and a `set` with no SP after its property decode to no command
and are answered by the `MissingParameter` error line; nothing else is written. -/
def Obligations.AbsentPartIsAnsweredMissingParameter : Prop :=
  ∀ (L : List Byte) (s : State),
    (L = cmdGet ∨ L = cmdSet ∨
      (∃ r, L = cmdGet ++ Ascii.sp :: tailBytes r) ∨ (∃ r, L = cmdSet ++ Ascii.sp :: tailBytes r) ∨
      (∃ p : PropertyId, L = cmdSet ++ Ascii.sp :: p.name)) →
      (∀ i, decode L ≠ .ok i) ∧
      interpret L s = .next { s with txq := s.txq ++ (errorPrefix ++ s.cfg.errText.missingParameter ++ crlf) }

/-- R90: a `set` of a known property whose VALUE field is no numeral in -128..127 decodes to no command and is answered
by the `InvalidInteger` error line, whatever the property; nothing else is written. -/
def Obligations.BadValueIsAnsweredInvalidInteger : Prop :=
  ∀ (p : PropertyId) (V : List Byte) (s : State), (¬ ∃ v, IsNumeral V v) →
    (∀ i, decode (cmdSet ++ Ascii.sp :: (p.name ++ Ascii.sp :: V)) ≠ .ok i) ∧
    interpret (cmdSet ++ Ascii.sp :: (p.name ++ Ascii.sp :: V)) s
      = .next { s with txq := s.txq ++ (errorPrefix ++ s.cfg.errText.invalidInteger ++ crlf) }

/-! ### Steps -/

/-- A step takes the next turn off the schedule and runs the instruction the turn's agent fetches: FG the byte at the
head of `IN`, ISR the handler, ADC its completion, HOST the next operation of its boot sequence, which the turn uses up
(R282, R284; log entry 21). A refused instruction is marked and changes nothing else (R10, R269; log entry 18). An agent that has no
step passes its turn (the schedule and the idle turn are the model's, log entries 1 and 8). -/
def Obligations.StepRunsTheFetchedInstruction : Prop :=
  (∀ (s u : State) (t : Turn) (rest : List Turn) (i : Instr),
    s.sched = t :: rest → fetch t s = some i →
      u = { s with sched := rest, bootq := if t = .boot then s.bootq.tail else s.bootq } →
      (∀ v, exec i u = .next v → step s = .next v) ∧
      (∀ r, exec i u = .refused r → step s = .next { u with marks := u.marks ++ [r] }) ∧
      (∀ k, exec i u = .fault (.lineBufferOffset k) → step s = .fault (.lineBufferOffset k)) ∧
      (∀ a, exec i u = .fault (.noStep a) → step s = .next u)) ∧
  (∀ (s : State) (b : Byte) (l : List Byte), s.inq = b :: l → fetch .fg s = some (.evRxByte b)) ∧
  (∀ (s : State) (a : U16), fetch .isr s = some .isrConvComplete ∧ fetch (.adc a) s = some (.evAdcDone a)) ∧
  ∀ (s : State) (l : List BootOp) (m : Motor) (e : Bool),
    (s.bootq = .connect :: l → fetch .boot s = some .bootConnect) ∧
    (s.bootq = .arm :: l → fetch .boot s = some .bootArm) ∧
    (s.bootq = .enable m e :: l → fetch .boot s = some (.bootEnable m e)) ∧
    (s.bootq = .done :: l → fetch .boot s = some .bootDone)

/-- When FG's turn takes a terminator and the bytes of the line buffer decode to the instruction `i`, the step is `exec`
of `i` at the state with the turn and the byte taken, after which the next line starts empty (R162, R86). -/
def Obligations.StepRunsTheDecodedCommand : Prop :=
  ∀ (s : State) (rest : List Turn) (b : Byte) (l L : List Byte) (i : Instr),
    s.sched = .fg :: rest → s.booted = true → s.inq = b :: l → b = Ascii.cr ∨ b = Ascii.lf →
      currentLine s = .ok L → decode L = .ok i →
        ∃ t, exec i { s with sched := rest, inq := l } = .next t ∧ step s = .next { t with lblen := 0 }

/-- The turns that run no instruction: HOST appends a byte to `IN`, or removes the first byte of `TXQ` (R167; that the
turn does nothing on an empty `TXQ` is log entry 15); power comes on (R280), with `IN`, the schedule (log entry 16) and
the marks (log entry 18) staying, and with log entry 3's values of the elements R33 leaves unspecified; FG passes its
turn with no byte waiting and HOST passes its boot turn after the boot sequence (log entries 8 and 21); with nothing
scheduled nothing happens (log entry 1). -/
def Obligations.WorldTurnsDoOnlyTheirAct : Prop :=
  ∀ (s : State) (rest : List Turn) (b : Byte),
    (s.sched = .send b :: rest → step s = .next { s with sched := rest, inq := s.inq ++ [b] }) ∧
    (s.sched = .take :: rest → step s = .next { s with sched := rest, txq := s.txq.drop 1 }) ∧
    (s.sched = .powerOn :: rest →
      step s = .next { State.atReset s.strategy s.cfg s.inq rest with marks := s.marks }) ∧
    (s.sched = .fg :: rest → s.inq = [] → step s = .next { s with sched := rest }) ∧
    (s.sched = .boot :: rest → s.bootq = [] → step s = .next { s with sched := rest }) ∧
    (s.sched = [] → step s = .next s)

/-! ### Boot and reset -/

/-- R33's values, for every strategy and parameters, and those of R281. `ADC_SEL`, `ADC_RESULT` and `LB` are
unspecified in R33 and nothing is said of them here. -/
def Obligations.ResetHoldsTheValuesOfTheTable : Prop :=
  ∀ (st : Strategy) (c : Config) (s : State), s = State.resetWith st c →
    s.strategy = st ∧ s.cfg = c ∧
    (∀ m : Motor,
      s.en.get m = false ∧ s.sample.get m = c.sampleReset ∧ mode m s = .sleep ∧
      (st = .brakingPWM → ∃ r, s.drive = .braking r ∧ (r.get m).dutyF = 0 ∧ (r.get m).dutyR = 0) ∧
      (st = .coastingPWM → ∃ r, s.drive = .coasting r ∧
        (r.get m).dutyE = (if c.coastInvert then 255 else 0) ∧ (r.get m).dirf = true ∧ (r.get m).hiz = false)) ∧
    s.nextCh = .m1 ∧ s.adcBusy = false ∧ s.irqPending = false ∧ s.irqEn = false ∧ s.armed = false ∧
    s.lblen = 0 ∧ s.txq = [] ∧ s.booted = false

/-- R282, R284: after a reset, the first or a power-on in any state, HOST's next operations are the boot sequence; until
it enables them no other agent has a step; and its turns, with nothing between them, run to the state after boot:
connected, armed, converting M1, motors enabled as `BOOT_EN_MOTORS` says, lines admitted, all else as at reset. That the
boot turns stand on the schedule is the model's choice (log entry 1), as are HOST's queue (log entry 21), the marks kept
through a power-on (log entry 18) and the values of log entry 3 that stay. -/
def Obligations.BootSequenceReachesTheBootedState : Prop :=
  ∀ (st : Strategy) (c : Config),
    core.run (if c.bootEnMotors then 5 else 3) (State.resetWith st c)
      = .next { State.atReset st c [] [] with
          irqEn := true, armed := true, nextCh := .m1, adcSel := .m1, adcBusy := true
          en := { m1 := c.bootEnMotors, m2 := c.bootEnMotors }, booted := true, bootq := [] } ∧
    (∀ (s t : State) (rest : List Turn), s.sched = .powerOn :: rest → step s = .next t →
      t.bootq = [.connect, .arm]
        ++ (if s.cfg.bootEnMotors then [.enable .m1 true, .enable .m2 true] else []) ++ [.done] ∧
      ∀ (b : Byte) (a : U16), exec (.evRxByte b) t = .fault (.noStep .fg) ∧
        exec .isrConvComplete t = .fault (.noStep .isr) ∧ exec (.evAdcDone a) t = .fault (.noStep .adc)) ∧
    ∀ (s : State) (rest : List Turn) (n : Nat), n = (if s.cfg.bootEnMotors then 5 else 3) →
      s.sched = .powerOn :: (List.replicate n .boot ++ rest) →
        core.run (n + 1) s
          = .next { State.atReset s.strategy s.cfg s.inq rest with
              irqEn := true, armed := true, nextCh := .m1, adcSel := .m1, adcBusy := true
              en := { m1 := s.cfg.bootEnMotors, m2 := s.cfg.bootEnMotors }, booted := true, bootq := []
              marks := s.marks }

/-- R110: `BOOT_CONNECT` connects the notification before boot is done and once only, else it is refused. -/
def Obligations.BootConnectConnectsOnce : Prop :=
  ∀ s : State,
    (s.booted = false ∧ s.irqEn = false → exec .bootConnect s = .next { s with irqEn := true }) ∧
    (¬ (s.booted = false ∧ s.irqEn = false) → exec .bootConnect s = .refused .bootConnect)

/-- R111: `BOOT_ARM` selects and triggers M1 once, after the connection and before boot is done, else it is refused. -/
def Obligations.BootArmStartsTheFirstConversion : Prop :=
  ∀ s : State,
    (s.booted = false ∧ s.armed = false ∧ s.irqEn = true →
      exec .bootArm s = .next { s with nextCh := .m1, adcSel := .m1, adcBusy := true, armed := true }) ∧
    (¬ (s.booted = false ∧ s.armed = false ∧ s.irqEn = true) → exec .bootArm s = .refused .bootArm)

/-- R136 and the refusal of R269: `BOOT_ENABLE(m, e)` writes `EN[m]` only, under both strategies, before boot is done. -/
def Obligations.BootEnableWritesOneEnable : Prop :=
  ∀ (s : State) (m : Motor) (e : Bool),
    (s.booted = false → ∃ t, exec (.bootEnable m e) s = .next t ∧ t.en.get m = e ∧
      t.en.get m.other = s.en.get m.other ∧ t = { s with en := t.en }) ∧
    (s.booted = true → exec (.bootEnable m e) s = .refused .bootEnable)

/-- R283: `BOOT_DONE` ends boot once the sampler is armed, else it is refused; from then on received bytes are taken and
every boot operation is refused. -/
def Obligations.BootDoneAdmitsLines : Prop :=
  ∀ s : State,
    (s.booted = false ∧ s.armed = true →
      ∃ t, exec .bootDone s = .next t ∧ t = { s with booted := true } ∧
        (∀ b l, s.inq = b :: l → exec (.evRxByte b) t ≠ .fault (.noStep .fg)) ∧
        exec .bootConnect t = .refused .bootConnect ∧ exec .bootArm t = .refused .bootArm ∧
        (∀ m e, exec (.bootEnable m e) t = .refused .bootEnable) ∧ exec .bootDone t = .refused .bootDone) ∧
    (¬ (s.booted = false ∧ s.armed = true) → exec .bootDone s = .refused .bootDone)

/-! ### The sampler -/

/-- R112: `EV_ADC_DONE(a)` holds the result and raises the completion while a conversion is in flight and none is
pending; a draw above `2^ADC_BITS - 1` is refused; otherwise there is no step (shown as `Fault.noStep`, log entry 8), whatever the
draw: that the enabling comes before the range is the model's reading (log entry 9). -/
def Obligations.AdcCompletionRaisesTheNotification : Prop :=
  ∀ (s : State) (a : U16),
    (s.adcBusy = true ∧ s.irqPending = false ∧ a.toNat ≤ 2 ^ s.cfg.adcBits - 1 →
      exec (.evAdcDone a) s = .next { s with adcResult := a, adcBusy := false, irqPending := true }) ∧
    (s.adcBusy = true ∧ s.irqPending = false ∧ 2 ^ s.cfg.adcBits - 1 < a.toNat →
      exec (.evAdcDone a) s = .refused (.adcDraw a)) ∧
    (¬ (s.adcBusy = true ∧ s.irqPending = false) → exec (.evAdcDone a) s = .fault (.noStep .adc))

/-- R113: the handler stores the result for the channel `NEXTCH` names on entry, flips it, reprograms the selector and
re-triggers, in one step, and clears the pending bit; it writes nothing else. Otherwise ISR has no step (shown as
`Fault.noStep`, log entry 8). -/
def Obligations.HandlerStoresFlipsAndRetriggers : Prop :=
  ∀ s : State,
    (s.irqPending = true ∧ s.irqEn = true →
      ∃ t, exec .isrConvComplete s = .next t ∧
        t.sample.get s.nextCh = s.adcResult ∧ t.sample.get s.nextCh.other = s.sample.get s.nextCh.other ∧
        t.nextCh = s.nextCh.other ∧ t.adcSel = s.nextCh.other ∧ t.adcBusy = true ∧ t.irqPending = false ∧
        t = { s with sample := t.sample, nextCh := t.nextCh, adcSel := t.adcSel, adcBusy := true, irqPending := false }) ∧
    (¬ (s.irqPending = true ∧ s.irqEn = true) → exec .isrConvComplete s = .fault (.noStep .isr))

/-- R114: from an armed state with a conversion in flight, any number of completions stores into the two cells in strict
alternation, each re-triggering the other channel; nothing outside the sampler changes. -/
def Obligations.ChannelsAlternateForever : Prop :=
  ∀ (draws : List U16) (s : State), RunInv s → s.adcBusy = true → (∀ a ∈ draws, a.toNat < 2 ^ s.cfg.adcBits) →
    ∃ t, conversions draws s = .next t ∧
      t.sample = storeInTurn s.nextCh s.sample draws ∧
      t.nextCh = channelAfter s.nextCh draws.length ∧ t.adcSel = t.nextCh ∧ t.adcBusy = true ∧ t.irqPending = false ∧
      t.motorPart = s.motorPart ∧ t.linePart = s.linePart

/-- R115, R26: a step leaves both sample cells as they are, or it is a handler step and writes the cell of `NEXTCH` only, or
it is a power-on (R280). -/
def Obligations.OnlyTheHandlerWritesOneSample : Prop :=
  ∀ (s t : State), step s = .next t →
    t.sample = s.sample ∨
    ((∃ rest, s.sched = .isr :: rest) ∧ t.sample.get s.nextCh = s.adcResult ∧
      t.sample.get s.nextCh.other = s.sample.get s.nextCh.other) ∨
    (∃ rest, s.sched = .powerOn :: rest)

/-! ### Line input -/

/-- R160, R161, R163, R165: a printable byte is appended while there is room and dropped when the buffer is full; a byte
outside 0x20..0x7E that is no terminator is dropped without any effect. -/
def Obligations.ReceivedByteIsAcceptedOrDropped : Prop :=
  ∀ (s : State) (b : Byte) (l : List Byte), s.booted = true → s.inq = b :: l →
    (0x20 ≤ b.toNat → b.toNat ≤ 0x7E → s.lblen < s.cfg.lineCap →
      exec (.evRxByte b) s
        = .next { s with inq := l, lb := Memory.write s.lb s.lblen b, lblen := s.lblen + 1 }) ∧
    (0x20 ≤ b.toNat → b.toNat ≤ 0x7E → s.cfg.lineCap ≤ s.lblen → exec (.evRxByte b) s = .next { s with inq := l }) ∧
    (b.toNat < 0x20 ∨ 0x7E < b.toNat → b.toNat ≠ 0x0D → b.toNat ≠ 0x0A →
      exec (.evRxByte b) s = .next { s with inq := l })

/-- The frame of an accepted byte: the line buffer's byte at `LBLEN` reads as the byte received, every other byte as before. -/
def Obligations.AcceptedByteChangesOneBufferByte : Prop :=
  ∀ (s t : State) (b : Byte), Memory.wf s.lb → isPrintable b = true → s.lblen < s.cfg.lineCap →
    exec (.evRxByte b) s = .next t →
      Memory.read t.lb s.lblen = b ∧ (∀ a, a ≠ s.lblen → Memory.read t.lb a = Memory.read s.lb a) ∧
      t.lblen = s.lblen + 1 ∧ t.txq = s.txq ∧ t.motorPart = s.motorPart ∧ t.samplerPart = s.samplerPart ∧
      t.booted = s.booted ∧ t.cfg = s.cfg ∧ t.sched = s.sched ∧ t.bootq = s.bootq ∧ t.marks = s.marks ∧
      s.inq = b :: t.inq

/-- R162, R164: a terminator processes the line and empties it: nothing for an empty line, the error response for a line
that does not parse, the dispatched command otherwise. -/
def Obligations.TerminatorProcessesTheLine : Prop :=
  ∀ (s : State) (b : Byte) (l : List Byte), s.booted = true → s.inq = b :: l → b.toNat = 0x0D ∨ b.toNat = 0x0A →
    (s.lblen = 0 → exec (.evRxByte b) s = .next { s with inq := l }) ∧
    (∀ L k, s.lblen ≠ 0 → currentLine s = .ok L → parseLine L = .error k →
      exec (.evRxByte b) s = .next { s with inq := l, txq := s.txq ++ errorResponse s.cfg k, lblen := 0 }) ∧
    (∀ L c, s.lblen ≠ 0 → currentLine s = .ok L → parseLine L = .ok c →
      ∃ t, dispatch c { s with inq := l } = .next t ∧ exec (.evRxByte b) s = .next { t with lblen := 0 })

/-- R166: before boot is done, and while `IN` is empty, FG has no step, and the bytes wait in `IN`; that its turn is then
idle is the model's choice (log entry 8). -/
def Obligations.NoLineBeforeBoot : Prop :=
  ∀ (s : State) (b : Byte) (rest : List Turn), s.booted = false ∨ s.inq = [] →
    exec (.evRxByte b) s = .fault (.noStep .fg) ∧
    (s.sched = .fg :: rest → step s = .next { s with sched := rest })

/-- R165, R161, R163: the line is the first `LINE_CAP` printable bytes received since it was empty. -/
def Obligations.LineIsTheFirstAcceptedBytes : Prop :=
  ∀ (bs l : List Byte) (rest : List Turn) (s : State),
    Memory.wf s.lb → s.booted = true → s.lblen = 0 → s.inq = bs ++ l → s.sched = fgTurns bs.length ++ rest →
      (∀ b ∈ bs, b ≠ Ascii.cr ∧ b ≠ Ascii.lf) →
        ∃ t, core.run bs.length s = .next t ∧ currentLine t = .ok ((bs.filter isPrintable).take s.cfg.lineCap) ∧
          t = { s with lb := t.lb, lblen := t.lblen, inq := l, sched := rest }

/-- Receiving the line of any well-formed command and its CR runs exactly that command: the run of FG's steps ends in what
`exec` makes of the command, with the line buffer's bytes the only other change (R160 to R162, R180, R210). -/
def Obligations.ReceivedLineRunsItsCommand : Prop :=
  ∀ (s : State) (i : Instr) (L l : List Byte) (rest : List Turn),
    Memory.wf s.lb → s.booted = true → s.lblen = 0 → i.wf s.cfg = true → encode i = some L →
      s.inq = L ++ Ascii.cr :: l → s.sched = fgTurns (L.length + 1) ++ rest →
        ∃ t, exec i { s with inq := l, sched := rest } = .next t ∧
          ∃ lb, core.run (L.length + 1) s = .next { t with lb := lb }

/-! ### The get forms -/

/-- R212, R213: under `BrakingPWM` the union of the two direction duties, under `CoastingPWM` the stored value, not
inverted back (R140, R142); 8 bits wide; only `TXQ` is written. -/
def Obligations.GetSpeedReadsBackTheDuty : Prop :=
  ∀ (s : State) (t : Option (List Byte)),
    (∀ r, s.drive = .braking r →
      exec (.getM1speed t) s
        = .next { s with txq := s.txq ++ valueResponse s.cfg 8 (r.m1.dutyF ||| r.m1.dutyR).toNat } ∧
      exec (.getM2speed t) s
        = .next { s with txq := s.txq ++ valueResponse s.cfg 8 (r.m2.dutyF ||| r.m2.dutyR).toNat }) ∧
    (∀ r, s.drive = .coasting r →
      exec (.getM1speed t) s = .next { s with txq := s.txq ++ valueResponse s.cfg 8 r.m1.dutyE.toNat } ∧
      exec (.getM2speed t) s = .next { s with txq := s.txq ++ valueResponse s.cfg 8 r.m2.dutyE.toNat })

/-- R214, R215: 0 or 1, 8 bits wide, under `CoastingPWM`; `NotImplemented` under `BrakingPWM`; only `TXQ` is written. -/
def Obligations.GetDisableReadsThePin : Prop :=
  ∀ (s : State) (t : Option (List Byte)),
    (∀ r, s.drive = .coasting r →
      exec (.getM1disable t) s
        = .next { s with txq := s.txq ++ valueResponse s.cfg 8 (if r.m1.hiz then 1 else 0) } ∧
      exec (.getM2disable t) s
        = .next { s with txq := s.txq ++ valueResponse s.cfg 8 (if r.m2.hiz then 1 else 0) }) ∧
    (∀ r, s.drive = .braking r →
      exec (.getM1disable t) s = .next { s with txq := s.txq ++ errorResponse s.cfg .notImplemented } ∧
      exec (.getM2disable t) s = .next { s with txq := s.txq ++ errorResponse s.cfg .notImplemented })

/-- R216 to R219 and R226 to R229: every `get` and `set` of an LED property answers `NotImplemented`, under both
strategies and for every value; only `TXQ` is written. -/
def Obligations.LedFormsAnswerNotImplemented : Prop :=
  ∀ (s : State) (t : Option (List Byte)) (v : I8) (i : Instr),
    i ∈ [Instr.getLed1 t, .getLed2 t, .getLed3 t, .getLed4 t, .setLed1 v, .setLed2 v, .setLed3 v, .setLed4 v] →
      exec i s = .next { s with txq := s.txq ++ (errorPrefix ++ s.cfg.errText.notImplemented ++ crlf) }

/-- R220, R221: the most recent sample, 16 bits wide; only `TXQ` is written. -/
def Obligations.GetCurrentAnswersTheSample : Prop :=
  ∀ (s : State) (t : Option (List Byte)),
    exec (.getM1current t) s = .next { s with txq := s.txq ++ valueResponse s.cfg 16 s.sample.m1.toNat } ∧
    exec (.getM2current t) s = .next { s with txq := s.txq ++ valueResponse s.cfg 16 s.sample.m2.toNat }

/-- R212, R213: the answer of a speed readback does not depend on the other motor, on the enables, on the sampler or on
the line: two states of the same strategy that agree on that motor's registers answer alike. -/
def Obligations.SpeedReadbackIgnoresEverythingElse : Prop :=
  ∀ (s u s' u' : State) (t : Option (List Byte)) (m : Motor) (i : Instr),
    (m = .m1 ∧ i = .getM1speed t ∨ m = .m2 ∧ i = .getM2speed t) → s.cfg.hexPad = u.cfg.hexPad →
    (∃ r q, s.drive = .braking r ∧ u.drive = .braking q ∧ r.get m = q.get m) ∨
      (∃ r q, s.drive = .coasting r ∧ u.drive = .coasting q ∧ r.get m = q.get m) →
      exec i s = .next s' → exec i u = .next u' → ∃ a, s'.txq = s.txq ++ a ∧ u'.txq = u.txq ++ a

/-! ### The set forms -/

/-- R222, R223 (R131 to R134): under `BrakingPWM` the forward and reverse codes go to the direction pins the sign
convention names, as one update; under `CoastingPWM` the larger code is stored, inverted when `COAST_INVERT`, and the
direction pins follow the sign and stay at speed 0. `EN`, `HIZ`, the other motor and everything else stay, and nothing is
answered. -/
def Obligations.SetSpeedWritesTheDuty : Prop :=
  ∀ (s : State) (m : Motor) (v : I8) (i : Instr),
    (m = .m1 ∧ i = .setM1speed v ∨ m = .m2 ∧ i = .setM2speed v) →
      (∀ r, s.drive = .braking r →
        ∃ q : PerMotor BrakingRegs, exec i s = .next { s with drive := .braking q } ∧
          q.get m.other = r.get m.other ∧
          ∃ f b : Byte,
            (f.toNat : Int) = (if 0 < v.toInt then 2 * v.toInt else 0) ∧
            (b.toNat : Int) = (if v.toInt < 0 then 2 * (-v.toInt) - 1 else 0) ∧
            (s.cfg.sign.get m = .normal → (q.get m).dutyF = f ∧ (q.get m).dutyR = b) ∧
            (s.cfg.sign.get m = .inverted → (q.get m).dutyF = b ∧ (q.get m).dutyR = f)) ∧
      (∀ r, s.drive = .coasting r →
        ∃ q : PerMotor CoastingRegs, exec i s = .next { s with drive := .coasting q } ∧
          q.get m.other = r.get m.other ∧ (q.get m).hiz = (r.get m).hiz ∧
          (∃ d : Int, d = (if 0 < v.toInt then 2 * v.toInt else if v.toInt < 0 then 2 * (-v.toInt) - 1 else 0) ∧
            ((q.get m).dutyE.toNat : Int) = (if s.cfg.coastInvert then 255 - d else d)) ∧
          (0 < v.toInt → ((q.get m).dirf = true ↔ s.cfg.sign.get m = .normal)) ∧
          (v.toInt < 0 → ((q.get m).dirf = true ↔ s.cfg.sign.get m = .inverted)) ∧
          (v.toInt = 0 → (q.get m).dirf = (r.get m).dirf))

/-- R224, R225: under `CoastingPWM` every non-zero value sets Hi-Z and zero clears it, silently, and nothing else is
written; under `BrakingPWM` the answer is `NotImplemented` for every value and only `TXQ` is written. -/
def Obligations.SetDisableDrivesThePin : Prop :=
  ∀ (s : State) (m : Motor) (v : I8) (i : Instr),
    (m = .m1 ∧ i = .setM1disable v ∨ m = .m2 ∧ i = .setM2disable v) →
      (∀ r, s.drive = .coasting r →
        ∃ q : PerMotor CoastingRegs, exec i s = .next { s with drive := .coasting q } ∧
          q.get m.other = r.get m.other ∧ (q.get m).dutyE = (r.get m).dutyE ∧ (q.get m).dirf = (r.get m).dirf ∧
          ((q.get m).hiz = true ↔ v.toInt ≠ 0)) ∧
      (∀ r, s.drive = .braking r →
        exec i s = .next { s with txq := s.txq ++ (errorPrefix ++ s.cfg.errText.notImplemented ++ crlf) })

/-- R230, R231: the current properties are get-only: every `set` answers `UnsupportedAction`; only `TXQ` is written. -/
def Obligations.SetCurrentAnswersUnsupportedAction : Prop :=
  ∀ (s : State) (v : I8),
    exec (.setM1current v) s
      = .next { s with txq := s.txq ++ (errorPrefix ++ s.cfg.errText.unsupportedAction ++ crlf) } ∧
    exec (.setM2current v) s
      = .next { s with txq := s.txq ++ (errorPrefix ++ s.cfg.errText.unsupportedAction ++ crlf) }

/-! ### The Motor Driver's laws -/

/-- R139, R144: no Motor Driver operation answers anything; under `BrakingPWM` `setDisable` writes no state and there is
no disable readback, and it is the dispatcher that reports `NotImplemented`, for all four disable forms. -/
def Obligations.MotorDriverRaisesNothingItself : Prop :=
  ∀ (s : State) (m : Motor) (v : I8) (b : Bool) (tl : Option (List Byte)),
    (setSpeed m v s).txq = s.txq ∧ (setEnable m b s).txq = s.txq ∧ (setDisable m b s).txq = s.txq ∧
    (s.strategy = .brakingPWM → setDisable m b s = s ∧ getDisable m s = none ∧
      ∀ i ∈ [Instr.getM1disable tl, .getM2disable tl, .setM1disable v, .setM2disable v],
        exec i s = .next { s with txq := s.txq ++ (errorPrefix ++ s.cfg.errText.notImplemented ++ crlf) })

/-- R131: the codes of a speed, their ranges and parities, and that the drive code determines the speed. -/
def Obligations.SpeedMappingIsTheAsymmetricScaling : Prop :=
  (∀ v : I8,
    ((fwdCode v).toNat : Int) = (if 0 < v.toInt then 2 * v.toInt else 0) ∧
    ((revCode v).toNat : Int) = (if v.toInt < 0 then 2 * (-v.toInt) - 1 else 0) ∧
    (driveCode v).toNat = (fwdCode v).toNat + (revCode v).toNat ∧
    (fwdCode v = 0 ∨ revCode v = 0) ∧
    (fwdCode v ≠ 0 → (fwdCode v).toNat % 2 = 0 ∧ 2 ≤ (fwdCode v).toNat ∧ (fwdCode v).toNat ≤ 254) ∧
    (revCode v ≠ 0 → (revCode v).toNat % 2 = 1)) ∧
  ∀ v w : I8, driveCode v = driveCode w → v = w

/-- R135: after a speed is set, it is recovered from the readback, in every state, under both strategies, both
`COAST_INVERT` values and both sign conventions. -/
def Obligations.SpeedIsRecoveredFromTheReadback : Prop :=
  ∀ (s t : State) (m : Motor) (v : I8) (i : Instr) (d : Byte),
    (m = .m1 ∧ i = .setM1speed v ∨ m = .m2 ∧ i = .setM2speed v) → exec i s = .next t →
      d = (match t.drive with
        | .braking _ => getSpeed m t
        | .coasting _ => decDuty s.cfg.coastInvert (getSpeed m t)) →
        v.toInt = (if d.toNat = 0 then 0 else if d.toNat % 2 = 0 then (d.toNat : Int) / 2 else -(((d.toNat : Int) + 1) / 2))

/-- R24: at most one direction duty of a motor is non-zero: at reset and after every step from a state in which it holds. -/
def Obligations.DutiesStayMutuallyExclusive : Prop :=
  (∀ (st : Strategy) (c : Config), OneDirection (State.resetWith st c).drive) ∧
  ∀ s t : State, OneDirection s.drive → step s = .next t → OneDirection t.drive

/-- R145: the mode of each motor, clause by clause, under both strategies. -/
def Obligations.ModeIsSelectedByTheRegisters : Prop :=
  ∀ (s : State) (m : Motor),
    (s.en.get m = false → mode m s = .sleep) ∧
    (∀ r, s.drive = .braking r → s.en.get m = true →
      ((r.get m).dutyF ≠ 0 → mode m s = .drive .physFwd (r.get m).dutyF .brake) ∧
      ((r.get m).dutyF = 0 → (r.get m).dutyR ≠ 0 → mode m s = .drive .physRev (r.get m).dutyR .brake) ∧
      ((r.get m).dutyF = 0 → (r.get m).dutyR = 0 → mode m s = .brake)) ∧
    (∀ r, s.drive = .coasting r → s.en.get m = true →
      ((r.get m).hiz = true → mode m s = .hiz) ∧
      ∀ d : Byte, (d.toNat : Int) =
          (if s.cfg.coastInvert then 255 - ((r.get m).dutyE.toNat : Int) else ((r.get m).dutyE.toNat : Int)) →
        ((r.get m).hiz = false → d = 0 → mode m s = .coast) ∧
        ((r.get m).hiz = false → d ≠ 0 →
          mode m s = .drive (if (r.get m).dirf then .physFwd else .physRev) d .coast))

/-- A speed set on an enabled motor drives it at the code of the speed in the direction the sign convention gives
(R131 to R134, R145), unless the bridge is held in Hi-Z. -/
def Obligations.SetSpeedSelectsTheDrive : Prop :=
  ∀ (s t : State) (m : Motor) (v : I8) (i : Instr),
    (m = .m1 ∧ i = .setM1speed v ∨ m = .m2 ∧ i = .setM2speed v) → s.en.get m = true → exec i s = .next t →
      v.toInt ≠ 0 →
      ∃ dir : Direction,
        (dir = .physFwd ↔ (0 < v.toInt ↔ s.cfg.sign.get m = .normal)) ∧
        (∀ r, s.drive = .braking r → mode m t = .drive dir (driveCode v) .brake) ∧
        (∀ r, s.drive = .coasting r → (r.get m).hiz = false → mode m t = .drive dir (driveCode v) .coast) ∧
        (∀ r, s.drive = .coasting r → (r.get m).hiz = true → mode m t = .hiz)

/-- R137: a disabled motor is asleep whatever its registers; a speed or a disable set meanwhile is stored, and enabling
gives the mode it would have had if the motor had been enabled all along. -/
def Obligations.SettingsMadeAsleepActOnEnable : Prop :=
  ∀ (s : State) (m k : Motor) (v : I8) (b : Bool),
    mode m (setEnable m false s) = .sleep ∧
    mode m (setEnable m true (setSpeed k v (setEnable m false s))) = mode m (setSpeed k v (setEnable m true s)) ∧
    mode m (setEnable m true (setDisable k b (setEnable m false s))) = mode m (setDisable k b (setEnable m true s))

/-- R138: releasing the disable pin of an enabled motor returns it to the mode it had when the pin was not driven. -/
def Obligations.ReleasedPinReturnsTheDrive : Prop :=
  ∀ (s t u : State) (m : Motor) (v : I8) (i j : Instr) (r : PerMotor CoastingRegs),
    (m = .m1 ∧ i = .setM1disable v ∧ j = .setM1disable 0 ∨ m = .m2 ∧ i = .setM2disable v ∧ j = .setM2disable 0) →
      s.drive = .coasting r → (r.get m).hiz = false → s.en.get m = true → v ≠ 0 →
      exec i s = .next t → exec j t = .next u →
        mode m t = .hiz ∧ mode m u = mode m s ∧ u = s

/-- R146, R133: for every non-decreasing `PWM_FRACTION`, under `CoastingPWM` with `COAST_INVERT` a smaller stored value
drives for at least as large a part of the period. -/
def Obligations.SmallerStoredValueDrivesLonger : Prop :=
  ∀ (f : Byte → Rat), (∀ d e : Byte, 1 ≤ d.toNat → d.toNat ≤ e.toNat → f d ≤ f e) →
    ∀ (s t : State) (m : Motor) (r q : PerMotor CoastingRegs),
      s.drive = .coasting r → t.drive = .coasting q → s.cfg.coastInvert = true → t.cfg.coastInvert = true →
      s.en.get m = true → t.en.get m = true → (r.get m).hiz = false → (q.get m).hiz = false →
      (r.get m).dutyE.toNat ≤ (q.get m).dutyE.toNat → (q.get m).dutyE.toNat < 255 →
        (mode m t).onFraction f ≤ (mode m s).onFraction f

/-- R65: a silent `set` applied twice leaves the state it leaves when applied once. -/
def Obligations.SilentSetIsIdempotent : Prop :=
  ∀ (s t : State) (v : I8) (i : Instr),
    i ∈ [Instr.setM1speed v, .setM2speed v, .setM1disable v, .setM2disable v] →
      exec i s = .next t → t.txq = s.txq → exec i t = .next t

/-! ### Responses -/

/-- R96: a value response is `0x`, the digits and CR LF, and the digits spell the value in uppercase hexadecimal: exactly
`w / 4` digits under `Fixed`; no leading zero digit and at least one digit under `Minimal`. -/
def Obligations.HexDigitsSpellTheValue : Prop :=
  ∀ (c : Config) (w v : Nat), w = 8 ∨ w = 16 → v < 2 ^ w →
    ∃ ds, valueResponse c w v = [0x30, 0x78] ++ ds ++ [0x0D, 0x0A] ∧ ds = hex c.hexPad w v ∧
      hexValue 0 ds = some v ∧
      (c.hexPad = .fixed → ds.length = w / 4) ∧
      (c.hexPad = .minimal → ds.length ≠ 0 ∧ (ds.head? = some 0x30 → v = 0 ∧ ds = [0x30]))

/-- R99: what a command, or any line, well formed or not, appends to `TXQ` is nothing, or a printable text followed by
the one CR LF that ends it. -/
def Obligations.ResponsesEndWithTheOnlyCrLf : Prop :=
  ∀ (s t : State), s.cfg.wf = true →
    (∃ i : Instr, i.isCommand = true ∧ exec i s = .next t) ∨ (∃ L, interpret L s = .next t) →
      ∃ r, t.txq = s.txq ++ r ∧ (r = [] ∨ OneResponse r)

/-- R232: a line that emits anything writes nothing else: no error leaves a part of a write, and no value is answered
by a form that writes. -/
def Obligations.AnsweringLineWritesNothingElse : Prop :=
  ∀ (L : List Byte) (s t : State), interpret L s = .next t → t.txq ≠ s.txq → t = { s with txq := t.txq }

/-- R233: every non-empty line produces exactly one response and nothing else. A line that does not parse and a `get`
append one response and write nothing else; a `set` appends nothing, or appends one response and writes nothing else. No
response is produced without a line: not by an event, a byte that ends no line, or an empty line. -/
def Obligations.OneResponsePerLine : Prop :=
  ∀ s t : State, s.cfg.wf = true →
    (∀ (L : List Byte) (k : ErrorKind), parseLine L = .error k → interpret L s = .next t →
      ∃ r, OneResponse r ∧ t = { s with txq := s.txq ++ r }) ∧
    (∀ (i : Instr) (p : PropertyId) (tl : Option (List Byte)), i.format = .get p tl → exec i s = .next t →
      ∃ r, OneResponse r ∧ t = { s with txq := s.txq ++ r }) ∧
    (∀ (i : Instr) (p : PropertyId) (v : I8), i.format = .set p v → exec i s = .next t →
      t.txq = s.txq ∨ ∃ r, OneResponse r ∧ t = { s with txq := s.txq ++ r }) ∧
    (∀ i : Instr, i.isCommand = false → (∀ b, i ≠ .evRxByte b) → exec i s = .next t → t.txq = s.txq) ∧
    (∀ b : Byte, (b ≠ Ascii.cr ∧ b ≠ Ascii.lf) ∨ s.lblen = 0 → exec (.evRxByte b) s = .next t → t.txq = s.txq)

/-! ### Frames and ownership -/

/-- The frame of the twenty commands: every register but the one motor's a `set` names, every enable, all of the
sampler, the boot bit, the buffer fill and every byte of the line buffer stay as they are. -/
def Obligations.CommandsLeaveTheRestUnchanged : Prop :=
  ∀ (i : Instr) (s t : State), i.isCommand = true → exec i s = .next t →
    t.en = s.en ∧ t.samplerPart = s.samplerPart ∧ t.booted = s.booted ∧ t.lblen = s.lblen ∧ t.inq = s.inq ∧
    t.sched = s.sched ∧ t.bootq = s.bootq ∧ t.marks = s.marks ∧ t.cfg = s.cfg ∧ t.strategy = s.strategy ∧
    (∀ a, Memory.read t.lb a = Memory.read s.lb a) ∧ s.txq <+: t.txq ∧
    (∀ m, (∀ v, ¬ (m = .m1 ∧ (i = .setM1speed v ∨ i = .setM1disable v)) ∧
        ¬ (m = .m2 ∧ (i = .setM2speed v ∨ i = .setM2disable v))) →
      (∀ r q, s.drive = .braking r → t.drive = .braking q → q.get m = r.get m) ∧
      (∀ r q, s.drive = .coasting r → t.drive = .coasting q → q.get m = r.get m))

/-- The frame of the events that are no received byte: the Motor Driver's registers, the line, `TXQ` and every byte of
the line buffer stay; an enable is written by `BOOT_ENABLE` only, the boot bit by `BOOT_DONE` only, a sample by the
handler only. -/
def Obligations.EventsLeaveTheRestUnchanged : Prop :=
  ∀ (i : Instr) (s t : State), i.isCommand = false → (∀ b, i ≠ .evRxByte b) → exec i s = .next t →
    t.drive = s.drive ∧ t.txq = s.txq ∧ t.inq = s.inq ∧ t.lblen = s.lblen ∧ t.cfg = s.cfg ∧ t.sched = s.sched ∧
    t.bootq = s.bootq ∧ t.marks = s.marks ∧
    (∀ a, Memory.read t.lb a = Memory.read s.lb a) ∧
    ((∀ m e, i ≠ .bootEnable m e) → t.en = s.en) ∧ (i ≠ .bootDone → t.booted = s.booted) ∧
    (i ≠ .isrConvComplete → t.sample = s.sample) ∧ (i ≠ .bootConnect → t.irqEn = s.irqEn) ∧
    (i ≠ .bootArm → t.armed = s.armed) ∧ ((∀ a, i ≠ .evAdcDone a) → t.adcResult = s.adcResult)

/-- R118: no FG step writes the sampler: not the channel, the selector, the busy, pending, connect and arm bits, the
result register, nor a sample cell. -/
def Obligations.ForegroundNeverTouchesTheSampler : Prop :=
  ∀ (s t : State) (b : Byte), exec (.evRxByte b) s = .next t → t.samplerPart = s.samplerPart

/-- R261, R25, R76: an ISR or ADC step leaves FG's state exactly as before it, the sample cell apart: the Motor Driver,
the line, the queues. -/
def Obligations.SamplerNeverTouchesTheForeground : Prop :=
  ∀ (s t : State) (i : Instr), (i = .isrConvComplete ∨ ∃ a, i = .evAdcDone a) → exec i s = .next t →
    t.motorPart = s.motorPart ∧ t.linePart = s.linePart

/-- R29: `EN[m]` is written only by `BOOT_ENABLE`, `HIZ[m]` only by the `set mNdisable` forms and `DIRF[m]` only by the
`set mNspeed` forms: no other command or event changes them. -/
def Obligations.NoBitIsWrittenAsASideEffect : Prop :=
  ∀ (i : Instr) (s t : State), (∀ b, i ≠ .evRxByte b) → exec i s = .next t →
    ((∀ m e, i ≠ .bootEnable m e) → t.en = s.en) ∧
    (∀ r q m, s.drive = .coasting r → t.drive = .coasting q →
      ((∀ v, i ≠ .setM1disable v ∧ i ≠ .setM2disable v) → (q.get m).hiz = (r.get m).hiz) ∧
      ((∀ v, i ≠ .setM1speed v ∧ i ≠ .setM2speed v) → (q.get m).dirf = (r.get m).dirf))

/-- The sampler's run does not depend on the foreground (R69, R118): two states that agree on the sampler and the
resolution take sampler steps to states that agree on the sampler. -/
def Obligations.SamplerRunsIndependentlyOfTheForeground : Prop :=
  ∀ (draws : List U16) (s u t : State), s.samplerPart = u.samplerPart → s.cfg.adcBits = u.cfg.adcBits →
    conversions draws s = .next t → ∃ v, conversions draws u = .next v ∧ v.samplerPart = t.samplerPart

/-! ### The whole machine -/

/-- R34, R130: no step changes the parameters or the strategy. -/
def Obligations.NoStepChangesTheBuild : Prop :=
  ∀ s t : State, step s = .next t → t.cfg = s.cfg ∧ t.strategy = s.strategy

/-- R269: exactly these instructions are refused, and a refused step is kept as a mark on the whole state and is never
final: nothing else changes, and no later step takes a mark away (that a power-on keeps them is log entry 18). That a draw
out of range is refused only while a conversion is in flight and none is pending is the model's reading (log entry 9). -/
def Obligations.ExactlyTheHostViolationsAreRefused : Prop :=
  (∀ (i : Instr) (s : State),
    (∃ r, exec i s = .refused r) ↔
      (i = .bootConnect ∧ (s.irqEn = true ∨ s.booted = true)) ∨
      (i = .bootArm ∧ (s.irqEn = false ∨ s.armed = true ∨ s.booted = true)) ∨
      (∃ m e, i = .bootEnable m e ∧ s.booted = true) ∨
      (i = .bootDone ∧ (s.armed = false ∨ s.booted = true)) ∨
      (∃ a, i = .evAdcDone a ∧ s.adcBusy = true ∧ s.irqPending = false ∧ 2 ^ s.cfg.adcBits ≤ a.toNat)) ∧
  (∀ (s : State) (a : U16) (rest : List Turn), s.sched = .adc a :: rest → s.adcBusy = true → s.irqPending = false →
    2 ^ s.cfg.adcBits ≤ a.toNat → step s = .next { s with sched := rest, marks := s.marks ++ [.adcDraw a] }) ∧
  (∀ (s : State) (op : BootOp) (l : List BootOp) (rest : List Turn), s.sched = .boot :: rest → s.bootq = op :: l →
    s.booted = true → ∃ r, step s = .next { s with sched := rest, bootq := l, marks := s.marks ++ [r] }) ∧
  ∀ s t : State, step s = .next t → s.marks <+: t.marks

/-- R10, R91: in a state of a run every instruction answers a next state, unless it is a boot operation or a draw that is
refused, or the event of an agent that is not enabled: no line faults, hangs or is refused. -/
def Obligations.EveryEnabledInstructionCompletes : Prop :=
  ∀ (i : Instr) (s : State), RunInv s →
    (∃ t, exec i s = .next t) ∨
    ((i = .bootConnect ∨ i = .bootArm ∨ (∃ m e, i = .bootEnable m e) ∨ i = .bootDone ∨ ∃ a, i = .evAdcDone a) ∧
      ∃ r, exec i s = .refused r) ∨
    (i = .isrConvComplete ∧ ¬ (s.irqPending = true ∧ s.irqEn = true)) ∨
    (∃ a, i = .evAdcDone a ∧ ¬ (s.adcBusy = true ∧ s.irqPending = false)) ∨
    (∃ b, i = .evRxByte b ∧ ¬ (s.booted = true ∧ s.inq.head? = some b))

/-- The invariant holds at reset, under every strategy and all parameters R7 admits. Its clause for `ADC_RESULT` rests on
the reset value the model names (log entry 3). -/
def Obligations.InvariantHoldsAtReset : Prop :=
  (∀ (st : Strategy) (c : Config), c.wf = true → RunInv (State.resetWith st c)) ∧ RunInv State.reset

/-- Every step keeps the invariant, from every state that meets it and for every turn. -/
def Obligations.EveryStepKeepsTheInvariant : Prop :=
  ∀ s t : State, RunInv s → step s = .next t → RunInv t

/-- A state that meets the invariant never faults and never stops, whatever the turn: every step answers a next state. -/
def Obligations.NoStepOfARunFaults : Prop :=
  ∀ s : State, RunInv s → ∃ t, step s = .next t
end

