-- ==== Sys2Proof/Laws/Memory.lean ====
section
/-! SUPPORT. The laws of the line buffer's memory: a read after a write, the canonical form and the address range are
kept, and what a block of reads answers. -/

namespace Sys2Proof

/-! ### Per-motor values -/

@[simp] theorem PerMotor.get_set_self {α : Type} (x : PerMotor α) (m : Motor) (v : α) : (x.set m v).get m = v := by
  cases m <;> rfl

@[simp] theorem PerMotor.get_set_other {α : Type} (x : PerMotor α) (m : Motor) (v : α) :
    (x.set m v).get m.other = x.get m.other := by
  cases m <;> rfl

theorem PerMotor.get_set {α : Type} (x : PerMotor α) (m k : Motor) (v : α) :
    (x.set m v).get k = if k = m then v else x.get k := by
  cases m <;> cases k <;> rfl

@[simp] theorem Motor.other_other (m : Motor) : m.other.other = m := by cases m <;> rfl

theorem PerMotor.ext_get {α : Type} {x y : PerMotor α} (h : ∀ m : Motor, x.get m = y.get m) : x = y := by
  cases x; cases y
  have h1 := h .m1
  have h2 := h .m2
  simp only [PerMotor.get] at h1 h2
  rw [h1, h2]

namespace Machine

/-! ### Reads and writes -/

@[simp] theorem Memory.read_nil (a : Nat) : Memory.read [] a = Memory.unlisted := rfl

theorem Memory.read_cons (c : Host.Cell) (m : Memory) (a : Nat) :
    Memory.read (c :: m) a = if c.1 = a then c.2 else Memory.read m a := rfl

theorem Memory.read_of_not_listed {m : Memory} {a : Nat} (h : ∀ c ∈ m, c.1 ≠ a) :
    Memory.read m a = Memory.unlisted := by
  induction m with
  | nil => rfl
  | cons c m ih =>
    rw [Memory.read_cons, if_neg (h c (by simp))]
    exact ih fun d hd => h d (by simp [hd])

/-- A write leaves every other offset alone, in any memory. -/
theorem Memory.read_write_other (m : Memory) {a k : Nat} (b : Byte) (h : k ≠ a) :
    Memory.read (Memory.write m a b) k = Memory.read m k := by
  have h' : ¬ a = k := fun e => h e.symm
  induction m with
  | nil => by_cases hb : b = Memory.unlisted <;> simp [Memory.write, hb, Memory.read_cons, h']
  | cons c m ih =>
    by_cases h1 : a < c.1
    · by_cases hb : b = Memory.unlisted <;> simp [Memory.write, h1, hb, Memory.read_cons, h']
    · by_cases h2 : a = c.1
      · have h3 : ¬ c.1 = k := h2 ▸ h'
        by_cases hb : b = Memory.unlisted <;> simp [Memory.write, h2, hb, Memory.read_cons, h3]
      · simp [Memory.write, h1, h2, Memory.read_cons, ih]

/-- A read after a write to the same offset gives the byte written. -/
theorem Memory.read_write_same {m : Memory} (hm : Memory.wf m) (a : Nat) (b : Byte) :
    Memory.read (Memory.write m a b) a = b := by
  induction m with
  | nil => by_cases hb : b = Memory.unlisted <;> simp [Memory.write, hb, Memory.read_cons]
  | cons c m ih =>
    obtain ⟨hp, hn⟩ := hm
    rw [List.pairwise_cons] at hp
    by_cases h1 : a < c.1
    · by_cases hb : b = Memory.unlisted
      · have hu : Memory.read (c :: m) a = Memory.unlisted := by
          apply Memory.read_of_not_listed
          intro d hd
          rcases List.mem_cons.mp hd with rfl | hd
          · omega
          · have := hp.1 d hd; omega
        simpa [Memory.write, h1, hb] using hu
      · simp [Memory.write, h1, hb, Memory.read_cons]
    · by_cases h2 : a = c.1
      · by_cases hb : b = Memory.unlisted
        · have hu : Memory.read m a = Memory.unlisted := by
            apply Memory.read_of_not_listed
            intro d hd
            have := hp.1 d hd
            omega
          simpa [Memory.write, ← h2, hb] using hu
        · simp [Memory.write, h2, hb, Memory.read_cons]
      · have h3 : ¬ c.1 = a := fun e => h2 e.symm
        have hm' : Memory.wf m := ⟨hp.2, fun d hd => hn d (by simp [hd])⟩
        simpa [Memory.write, h1, h2, Memory.read_cons, h3] using ih hm'

/-- An entry of the memory after a write is the one written or an old one. -/
theorem Memory.mem_write {m : Memory} {a : Nat} {b : Byte} {c : Host.Cell} (h : c ∈ Memory.write m a b) :
    (c = (a, b) ∧ b ≠ Memory.unlisted) ∨ c ∈ m := by
  induction m with
  | nil => by_cases hb : b = Memory.unlisted <;> simp_all [Memory.write]
  | cons d m ih =>
    by_cases h1 : a < d.1
    · by_cases hb : b = Memory.unlisted <;> simp_all [Memory.write]
    · by_cases h2 : a = d.1
      · by_cases hb : b = Memory.unlisted <;> simp_all [Memory.write]
        rcases h with h | h <;> simp_all
      · simp only [Memory.write, h1, h2, if_false, List.mem_cons] at h
        rcases h with h | h
        · right; simp [h]
        · rcases ih h with h | h
          · exact .inl h
          · right; simp [h]

/-- A write keeps the canonical form. -/
theorem Memory.wf_write {m : Memory} (hm : Memory.wf m) (a : Nat) (b : Byte) : Memory.wf (Memory.write m a b) := by
  refine ⟨?_, fun c hc => ?_⟩
  · obtain ⟨hp, -⟩ := hm
    induction m with
    | nil => by_cases hb : b = Memory.unlisted <;> simp [Memory.write, hb]
    | cons d m ih =>
      have hp' := List.pairwise_cons.mp hp
      by_cases h1 : a < d.1
      · by_cases hb : b = Memory.unlisted
        · simpa [Memory.write, h1, hb] using hp'
        · simp only [Memory.write, h1, hb, if_true, if_false, List.pairwise_cons]
          refine ⟨fun c hc => ?_, hp'⟩
          rcases List.mem_cons.mp hc with rfl | hc
          · exact h1
          · have := hp'.1 c hc; omega
      · by_cases h2 : a = d.1
        · by_cases hb : b = Memory.unlisted
          · simpa [Memory.write, h2, hb] using hp'.2
          · simpa [Memory.write, h2, hb] using hp'
        · simp only [Memory.write, h1, h2, if_false, List.pairwise_cons]
          refine ⟨fun c hc => ?_, ih hp'.2⟩
          rcases Memory.mem_write hc with ⟨rfl, -⟩ | hc
          · simp only; omega
          · exact hp'.1 c hc
  · rcases Memory.mem_write hc with ⟨rfl, hb⟩ | hc
    · exact hb
    · exact hm.2 c hc

/-- So does a block of writes. -/
theorem Memory.wf_writeList {m : Memory} (hm : Memory.wf m) (a : Nat) (l : List Byte) :
    Memory.wf (Memory.writeList m a l) := by
  induction l generalizing m a with
  | nil => exact hm
  | cons b l ih => exact ih (Memory.wf_write hm a b) (a + 1)

/-- A block of writes leaves the offsets below it alone. -/
theorem Memory.read_writeList_below (l : List Byte) (m : Memory) {a k : Nat} (h : k < a) :
    Memory.read (Memory.writeList m a l) k = Memory.read m k := by
  induction l generalizing m a with
  | nil => rfl
  | cons b l ih => rw [Memory.writeList, ih _ (by omega), Memory.read_write_other _ _ (by omega)]

/-- A block of writes is read back byte by byte. -/
theorem Memory.read_writeList {m : Memory} (hm : Memory.wf m) (a : Nat) (l : List Byte) (k : Nat) (h : k < l.length) :
    Memory.read (Memory.writeList m a l) (a + k) = l[k] := by
  induction l generalizing m a k with
  | nil => simp at h
  | cons b l ih =>
    cases k with
    | zero =>
      simp only [Memory.writeList, Nat.add_zero, List.getElem_cons_zero]
      rw [Memory.read_writeList_below _ _ (by omega), Memory.read_write_same hm]
    | succ k =>
      have h' : k < l.length := by simpa using h
      have := ih (Memory.wf_write hm a b) (a + 1) k h'
      simp only [Memory.writeList, List.getElem_cons_succ]
      rw [show a + (k + 1) = a + 1 + k by omega, this]

/-! ### Blocks of reads -/

/-- `n` bytes from offset `i`. -/
def Memory.block (m : Memory) (i : Nat) : Nat → List Byte
  | 0 => []
  | n + 1 => Memory.read m i :: Memory.block m (i + 1) n

@[simp] theorem Memory.block_length (m : Memory) (i n : Nat) : (Memory.block m i n).length = n := by
  induction n generalizing i with
  | zero => rfl
  | succ n ih => simp [Memory.block, ih]

/-- One more byte at the end of a block. -/
theorem Memory.block_succ (m : Memory) (i n : Nat) :
    Memory.block m i (n + 1) = Memory.block m i n ++ [Memory.read m (i + n)] := by
  induction n generalizing i with
  | zero => rfl
  | succ n ih =>
    rw [Memory.block, ih (i + 1), Memory.block, List.cons_append, show i + 1 + n = i + (n + 1) by omega]

/-- Two memories that read alike over a range have the same block there. -/
theorem Memory.block_congr {m m' : Memory} (i n : Nat)
    (h : ∀ k, i ≤ k → k < i + n → Memory.read m k = Memory.read m' k) : Memory.block m i n = Memory.block m' i n := by
  induction n generalizing i with
  | zero => rfl
  | succ n ih =>
    rw [Memory.block, Memory.block, h i (by omega) (by omega), ih (i + 1) fun k h1 h2 => h k (by omega) (by omega)]

/-- Reads inside the capacity answer the block. -/
theorem memReads_eq (s : State) (i n : Nat) (h : i + n ≤ s.cfg.lineCap) :
    memReads s i n = .ok (Memory.block s.lb i n) := by
  induction n generalizing i with
  | zero => rfl
  | succ n ih =>
    have hi : i < s.cfg.lineCap := by omega
    simp only [memReads, memRead, hi, if_true, ih (i + 1) (by omega), Memory.block]

/-- Reads depend on the line buffer and its capacity only. -/
theorem memReads_congr {s t : State} (h : s.lb = t.lb) (hc : s.cfg = t.cfg) (i n : Nat) :
    memReads s i n = memReads t i n := by
  induction n generalizing i with
  | zero => rfl
  | succ n ih => simp only [memReads, memRead, h, hc, ih]

theorem currentLine_congr {s t : State} (h : s.lb = t.lb) (hc : s.cfg = t.cfg) (hl : s.lblen = t.lblen) :
    currentLine s = currentLine t := by
  rw [currentLine, currentLine, hl, memReads_congr h hc]

/-- While the fill is within the capacity the current line is the block of the first `LBLEN` bytes (R80). -/
theorem currentLine_eq (s : State) (h : s.lblen ≤ s.cfg.lineCap) :
    currentLine s = .ok (Memory.block s.lb 0 s.lblen) := memReads_eq s 0 s.lblen (by omega)

/-- What a block of reads answers, in any state: the whole block or the fault of the first missing offset. -/
theorem memReads_cases (s : State) (i n : Nat) :
    memReads s i n = .ok (Memory.block s.lb i n) ∨ ∃ k, memReads s i n = .error (.lineBufferOffset k) := by
  induction n generalizing i with
  | zero => exact .inl rfl
  | succ n ih =>
    by_cases hi : i < s.cfg.lineCap
    · rcases ih (i + 1) with h | ⟨k, h⟩
      · left; simp [memReads, memRead, hi, h, Memory.block]
      · right; exact ⟨k, by simp [memReads, memRead, hi, h]⟩
    · right; exact ⟨i, by simp [memReads, memRead, hi]⟩

end Machine

end Sys2Proof
end

