-- ==== Sys2Proof/Laws/State.lean ====
section
/-! SUPPORT. One lemma per field per named update of the state, so that no later proof unfolds a record update. -/

namespace Sys2Proof.Machine

/-! ### emit -/

@[simp] theorem emit_cfg (r : List Byte) (s : State) : (emit r s).cfg = s.cfg := rfl
@[simp] theorem emit_drive (r : List Byte) (s : State) : (emit r s).drive = s.drive := rfl
@[simp] theorem emit_en (r : List Byte) (s : State) : (emit r s).en = s.en := rfl
@[simp] theorem emit_sample (r : List Byte) (s : State) : (emit r s).sample = s.sample := rfl
@[simp] theorem emit_nextCh (r : List Byte) (s : State) : (emit r s).nextCh = s.nextCh := rfl
@[simp] theorem emit_adcSel (r : List Byte) (s : State) : (emit r s).adcSel = s.adcSel := rfl
@[simp] theorem emit_adcBusy (r : List Byte) (s : State) : (emit r s).adcBusy = s.adcBusy := rfl
@[simp] theorem emit_adcResult (r : List Byte) (s : State) : (emit r s).adcResult = s.adcResult := rfl
@[simp] theorem emit_irqPending (r : List Byte) (s : State) : (emit r s).irqPending = s.irqPending := rfl
@[simp] theorem emit_irqEn (r : List Byte) (s : State) : (emit r s).irqEn = s.irqEn := rfl
@[simp] theorem emit_armed (r : List Byte) (s : State) : (emit r s).armed = s.armed := rfl
@[simp] theorem emit_lb (r : List Byte) (s : State) : (emit r s).lb = s.lb := rfl
@[simp] theorem emit_lblen (r : List Byte) (s : State) : (emit r s).lblen = s.lblen := rfl
@[simp] theorem emit_txq (r : List Byte) (s : State) : (emit r s).txq = s.txq ++ r := rfl
@[simp] theorem emit_booted (r : List Byte) (s : State) : (emit r s).booted = s.booted := rfl
@[simp] theorem emit_inq (r : List Byte) (s : State) : (emit r s).inq = s.inq := rfl
@[simp] theorem emit_sched (r : List Byte) (s : State) : (emit r s).sched = s.sched := rfl
@[simp] theorem emit_bootq (r : List Byte) (s : State) : (emit r s).bootq = s.bootq := rfl
@[simp] theorem emit_marks (r : List Byte) (s : State) : (emit r s).marks = s.marks := rfl

/-! ### raiseError -/

@[simp] theorem raiseError_cfg (k : ErrorKind) (s : State) : (raiseError k s).cfg = s.cfg := rfl
@[simp] theorem raiseError_drive (k : ErrorKind) (s : State) : (raiseError k s).drive = s.drive := rfl
@[simp] theorem raiseError_en (k : ErrorKind) (s : State) : (raiseError k s).en = s.en := rfl
@[simp] theorem raiseError_sample (k : ErrorKind) (s : State) : (raiseError k s).sample = s.sample := rfl
@[simp] theorem raiseError_nextCh (k : ErrorKind) (s : State) : (raiseError k s).nextCh = s.nextCh := rfl
@[simp] theorem raiseError_adcSel (k : ErrorKind) (s : State) : (raiseError k s).adcSel = s.adcSel := rfl
@[simp] theorem raiseError_adcBusy (k : ErrorKind) (s : State) : (raiseError k s).adcBusy = s.adcBusy := rfl
@[simp] theorem raiseError_adcResult (k : ErrorKind) (s : State) : (raiseError k s).adcResult = s.adcResult := rfl
@[simp] theorem raiseError_irqPending (k : ErrorKind) (s : State) : (raiseError k s).irqPending = s.irqPending := rfl
@[simp] theorem raiseError_irqEn (k : ErrorKind) (s : State) : (raiseError k s).irqEn = s.irqEn := rfl
@[simp] theorem raiseError_armed (k : ErrorKind) (s : State) : (raiseError k s).armed = s.armed := rfl
@[simp] theorem raiseError_lb (k : ErrorKind) (s : State) : (raiseError k s).lb = s.lb := rfl
@[simp] theorem raiseError_lblen (k : ErrorKind) (s : State) : (raiseError k s).lblen = s.lblen := rfl
@[simp] theorem raiseError_txq (k : ErrorKind) (s : State) : (raiseError k s).txq = s.txq ++ errorResponse s.cfg k := rfl
@[simp] theorem raiseError_booted (k : ErrorKind) (s : State) : (raiseError k s).booted = s.booted := rfl
@[simp] theorem raiseError_inq (k : ErrorKind) (s : State) : (raiseError k s).inq = s.inq := rfl
@[simp] theorem raiseError_sched (k : ErrorKind) (s : State) : (raiseError k s).sched = s.sched := rfl
@[simp] theorem raiseError_bootq (k : ErrorKind) (s : State) : (raiseError k s).bootq = s.bootq := rfl
@[simp] theorem raiseError_marks (k : ErrorKind) (s : State) : (raiseError k s).marks = s.marks := rfl

/-! ### awaitNextLine -/

@[simp] theorem awaitNextLine_cfg (s : State) : (awaitNextLine s).cfg = s.cfg := rfl
@[simp] theorem awaitNextLine_drive (s : State) : (awaitNextLine s).drive = s.drive := rfl
@[simp] theorem awaitNextLine_en (s : State) : (awaitNextLine s).en = s.en := rfl
@[simp] theorem awaitNextLine_sample (s : State) : (awaitNextLine s).sample = s.sample := rfl
@[simp] theorem awaitNextLine_nextCh (s : State) : (awaitNextLine s).nextCh = s.nextCh := rfl
@[simp] theorem awaitNextLine_adcSel (s : State) : (awaitNextLine s).adcSel = s.adcSel := rfl
@[simp] theorem awaitNextLine_adcBusy (s : State) : (awaitNextLine s).adcBusy = s.adcBusy := rfl
@[simp] theorem awaitNextLine_adcResult (s : State) : (awaitNextLine s).adcResult = s.adcResult := rfl
@[simp] theorem awaitNextLine_irqPending (s : State) : (awaitNextLine s).irqPending = s.irqPending := rfl
@[simp] theorem awaitNextLine_irqEn (s : State) : (awaitNextLine s).irqEn = s.irqEn := rfl
@[simp] theorem awaitNextLine_armed (s : State) : (awaitNextLine s).armed = s.armed := rfl
@[simp] theorem awaitNextLine_lb (s : State) : (awaitNextLine s).lb = s.lb := rfl
@[simp] theorem awaitNextLine_lblen (s : State) : (awaitNextLine s).lblen = 0 := rfl
@[simp] theorem awaitNextLine_txq (s : State) : (awaitNextLine s).txq = s.txq := rfl
@[simp] theorem awaitNextLine_booted (s : State) : (awaitNextLine s).booted = s.booted := rfl
@[simp] theorem awaitNextLine_inq (s : State) : (awaitNextLine s).inq = s.inq := rfl
@[simp] theorem awaitNextLine_sched (s : State) : (awaitNextLine s).sched = s.sched := rfl
@[simp] theorem awaitNextLine_bootq (s : State) : (awaitNextLine s).bootq = s.bootq := rfl
@[simp] theorem awaitNextLine_marks (s : State) : (awaitNextLine s).marks = s.marks := rfl

/-! ### popIn -/

@[simp] theorem popIn_cfg (s : State) : (popIn s).cfg = s.cfg := rfl
@[simp] theorem popIn_drive (s : State) : (popIn s).drive = s.drive := rfl
@[simp] theorem popIn_en (s : State) : (popIn s).en = s.en := rfl
@[simp] theorem popIn_sample (s : State) : (popIn s).sample = s.sample := rfl
@[simp] theorem popIn_nextCh (s : State) : (popIn s).nextCh = s.nextCh := rfl
@[simp] theorem popIn_adcSel (s : State) : (popIn s).adcSel = s.adcSel := rfl
@[simp] theorem popIn_adcBusy (s : State) : (popIn s).adcBusy = s.adcBusy := rfl
@[simp] theorem popIn_adcResult (s : State) : (popIn s).adcResult = s.adcResult := rfl
@[simp] theorem popIn_irqPending (s : State) : (popIn s).irqPending = s.irqPending := rfl
@[simp] theorem popIn_irqEn (s : State) : (popIn s).irqEn = s.irqEn := rfl
@[simp] theorem popIn_armed (s : State) : (popIn s).armed = s.armed := rfl
@[simp] theorem popIn_lb (s : State) : (popIn s).lb = s.lb := rfl
@[simp] theorem popIn_lblen (s : State) : (popIn s).lblen = s.lblen := rfl
@[simp] theorem popIn_txq (s : State) : (popIn s).txq = s.txq := rfl
@[simp] theorem popIn_booted (s : State) : (popIn s).booted = s.booted := rfl
@[simp] theorem popIn_inq (s : State) : (popIn s).inq = s.inq.tail := rfl
@[simp] theorem popIn_sched (s : State) : (popIn s).sched = s.sched := rfl
@[simp] theorem popIn_bootq (s : State) : (popIn s).bootq = s.bootq := rfl
@[simp] theorem popIn_marks (s : State) : (popIn s).marks = s.marks := rfl

/-! ### setEnable -/

@[simp] theorem setEnable_cfg (m : Motor) (e : Bool) (s : State) : (setEnable m e s).cfg = s.cfg := rfl
@[simp] theorem setEnable_drive (m : Motor) (e : Bool) (s : State) : (setEnable m e s).drive = s.drive := rfl
@[simp] theorem setEnable_en (m : Motor) (e : Bool) (s : State) : (setEnable m e s).en = s.en.set m e := rfl
@[simp] theorem setEnable_sample (m : Motor) (e : Bool) (s : State) : (setEnable m e s).sample = s.sample := rfl
@[simp] theorem setEnable_nextCh (m : Motor) (e : Bool) (s : State) : (setEnable m e s).nextCh = s.nextCh := rfl
@[simp] theorem setEnable_adcSel (m : Motor) (e : Bool) (s : State) : (setEnable m e s).adcSel = s.adcSel := rfl
@[simp] theorem setEnable_adcBusy (m : Motor) (e : Bool) (s : State) : (setEnable m e s).adcBusy = s.adcBusy := rfl
@[simp] theorem setEnable_adcResult (m : Motor) (e : Bool) (s : State) : (setEnable m e s).adcResult = s.adcResult := rfl
@[simp] theorem setEnable_irqPending (m : Motor) (e : Bool) (s : State) : (setEnable m e s).irqPending = s.irqPending := rfl
@[simp] theorem setEnable_irqEn (m : Motor) (e : Bool) (s : State) : (setEnable m e s).irqEn = s.irqEn := rfl
@[simp] theorem setEnable_armed (m : Motor) (e : Bool) (s : State) : (setEnable m e s).armed = s.armed := rfl
@[simp] theorem setEnable_lb (m : Motor) (e : Bool) (s : State) : (setEnable m e s).lb = s.lb := rfl
@[simp] theorem setEnable_lblen (m : Motor) (e : Bool) (s : State) : (setEnable m e s).lblen = s.lblen := rfl
@[simp] theorem setEnable_txq (m : Motor) (e : Bool) (s : State) : (setEnable m e s).txq = s.txq := rfl
@[simp] theorem setEnable_booted (m : Motor) (e : Bool) (s : State) : (setEnable m e s).booted = s.booted := rfl
@[simp] theorem setEnable_inq (m : Motor) (e : Bool) (s : State) : (setEnable m e s).inq = s.inq := rfl
@[simp] theorem setEnable_sched (m : Motor) (e : Bool) (s : State) : (setEnable m e s).sched = s.sched := rfl
@[simp] theorem setEnable_bootq (m : Motor) (e : Bool) (s : State) : (setEnable m e s).bootq = s.bootq := rfl
@[simp] theorem setEnable_marks (m : Motor) (e : Bool) (s : State) : (setEnable m e s).marks = s.marks := rfl

/-! ### convComplete -/

@[simp] theorem convComplete_cfg (s : State) : (convComplete s).cfg = s.cfg := rfl
@[simp] theorem convComplete_drive (s : State) : (convComplete s).drive = s.drive := rfl
@[simp] theorem convComplete_en (s : State) : (convComplete s).en = s.en := rfl
@[simp] theorem convComplete_sample (s : State) : (convComplete s).sample = s.sample.set s.nextCh s.adcResult := rfl
@[simp] theorem convComplete_nextCh (s : State) : (convComplete s).nextCh = s.nextCh.other := rfl
@[simp] theorem convComplete_adcSel (s : State) : (convComplete s).adcSel = s.nextCh.other := rfl
@[simp] theorem convComplete_adcBusy (s : State) : (convComplete s).adcBusy = true := rfl
@[simp] theorem convComplete_adcResult (s : State) : (convComplete s).adcResult = s.adcResult := rfl
@[simp] theorem convComplete_irqPending (s : State) : (convComplete s).irqPending = false := rfl
@[simp] theorem convComplete_irqEn (s : State) : (convComplete s).irqEn = s.irqEn := rfl
@[simp] theorem convComplete_armed (s : State) : (convComplete s).armed = s.armed := rfl
@[simp] theorem convComplete_lb (s : State) : (convComplete s).lb = s.lb := rfl
@[simp] theorem convComplete_lblen (s : State) : (convComplete s).lblen = s.lblen := rfl
@[simp] theorem convComplete_txq (s : State) : (convComplete s).txq = s.txq := rfl
@[simp] theorem convComplete_booted (s : State) : (convComplete s).booted = s.booted := rfl
@[simp] theorem convComplete_inq (s : State) : (convComplete s).inq = s.inq := rfl
@[simp] theorem convComplete_sched (s : State) : (convComplete s).sched = s.sched := rfl
@[simp] theorem convComplete_bootq (s : State) : (convComplete s).bootq = s.bootq := rfl
@[simp] theorem convComplete_marks (s : State) : (convComplete s).marks = s.marks := rfl

/-! ### acceptByte -/

@[simp] theorem acceptByte_cfg (b : Byte) (s : State) : (acceptByte b s).cfg = s.cfg := by
  unfold acceptByte; split <;> rfl
@[simp] theorem acceptByte_drive (b : Byte) (s : State) : (acceptByte b s).drive = s.drive := by
  unfold acceptByte; split <;> rfl
@[simp] theorem acceptByte_en (b : Byte) (s : State) : (acceptByte b s).en = s.en := by
  unfold acceptByte; split <;> rfl
@[simp] theorem acceptByte_sample (b : Byte) (s : State) : (acceptByte b s).sample = s.sample := by
  unfold acceptByte; split <;> rfl
@[simp] theorem acceptByte_nextCh (b : Byte) (s : State) : (acceptByte b s).nextCh = s.nextCh := by
  unfold acceptByte; split <;> rfl
@[simp] theorem acceptByte_adcSel (b : Byte) (s : State) : (acceptByte b s).adcSel = s.adcSel := by
  unfold acceptByte; split <;> rfl
@[simp] theorem acceptByte_adcBusy (b : Byte) (s : State) : (acceptByte b s).adcBusy = s.adcBusy := by
  unfold acceptByte; split <;> rfl
@[simp] theorem acceptByte_adcResult (b : Byte) (s : State) : (acceptByte b s).adcResult = s.adcResult := by
  unfold acceptByte; split <;> rfl
@[simp] theorem acceptByte_irqPending (b : Byte) (s : State) : (acceptByte b s).irqPending = s.irqPending := by
  unfold acceptByte; split <;> rfl
@[simp] theorem acceptByte_irqEn (b : Byte) (s : State) : (acceptByte b s).irqEn = s.irqEn := by
  unfold acceptByte; split <;> rfl
@[simp] theorem acceptByte_armed (b : Byte) (s : State) : (acceptByte b s).armed = s.armed := by
  unfold acceptByte; split <;> rfl
@[simp] theorem acceptByte_txq (b : Byte) (s : State) : (acceptByte b s).txq = s.txq := by
  unfold acceptByte; split <;> rfl
@[simp] theorem acceptByte_booted (b : Byte) (s : State) : (acceptByte b s).booted = s.booted := by
  unfold acceptByte; split <;> rfl
@[simp] theorem acceptByte_inq (b : Byte) (s : State) : (acceptByte b s).inq = s.inq := by
  unfold acceptByte; split <;> rfl
@[simp] theorem acceptByte_sched (b : Byte) (s : State) : (acceptByte b s).sched = s.sched := by
  unfold acceptByte; split <;> rfl
@[simp] theorem acceptByte_bootq (b : Byte) (s : State) : (acceptByte b s).bootq = s.bootq := by
  unfold acceptByte; split <;> rfl
@[simp] theorem acceptByte_marks (b : Byte) (s : State) : (acceptByte b s).marks = s.marks := by
  unfold acceptByte; split <;> rfl

/-! ### setSpeed -/

@[simp] theorem setSpeed_cfg (m : Motor) (v : I8) (s : State) : (setSpeed m v s).cfg = s.cfg := by
  unfold setSpeed; split <;> rfl
@[simp] theorem setSpeed_en (m : Motor) (v : I8) (s : State) : (setSpeed m v s).en = s.en := by
  unfold setSpeed; split <;> rfl
@[simp] theorem setSpeed_sample (m : Motor) (v : I8) (s : State) : (setSpeed m v s).sample = s.sample := by
  unfold setSpeed; split <;> rfl
@[simp] theorem setSpeed_nextCh (m : Motor) (v : I8) (s : State) : (setSpeed m v s).nextCh = s.nextCh := by
  unfold setSpeed; split <;> rfl
@[simp] theorem setSpeed_adcSel (m : Motor) (v : I8) (s : State) : (setSpeed m v s).adcSel = s.adcSel := by
  unfold setSpeed; split <;> rfl
@[simp] theorem setSpeed_adcBusy (m : Motor) (v : I8) (s : State) : (setSpeed m v s).adcBusy = s.adcBusy := by
  unfold setSpeed; split <;> rfl
@[simp] theorem setSpeed_adcResult (m : Motor) (v : I8) (s : State) : (setSpeed m v s).adcResult = s.adcResult := by
  unfold setSpeed; split <;> rfl
@[simp] theorem setSpeed_irqPending (m : Motor) (v : I8) (s : State) : (setSpeed m v s).irqPending = s.irqPending := by
  unfold setSpeed; split <;> rfl
@[simp] theorem setSpeed_irqEn (m : Motor) (v : I8) (s : State) : (setSpeed m v s).irqEn = s.irqEn := by
  unfold setSpeed; split <;> rfl
@[simp] theorem setSpeed_armed (m : Motor) (v : I8) (s : State) : (setSpeed m v s).armed = s.armed := by
  unfold setSpeed; split <;> rfl
@[simp] theorem setSpeed_lb (m : Motor) (v : I8) (s : State) : (setSpeed m v s).lb = s.lb := by
  unfold setSpeed; split <;> rfl
@[simp] theorem setSpeed_lblen (m : Motor) (v : I8) (s : State) : (setSpeed m v s).lblen = s.lblen := by
  unfold setSpeed; split <;> rfl
@[simp] theorem setSpeed_txq (m : Motor) (v : I8) (s : State) : (setSpeed m v s).txq = s.txq := by
  unfold setSpeed; split <;> rfl
@[simp] theorem setSpeed_booted (m : Motor) (v : I8) (s : State) : (setSpeed m v s).booted = s.booted := by
  unfold setSpeed; split <;> rfl
@[simp] theorem setSpeed_inq (m : Motor) (v : I8) (s : State) : (setSpeed m v s).inq = s.inq := by
  unfold setSpeed; split <;> rfl
@[simp] theorem setSpeed_sched (m : Motor) (v : I8) (s : State) : (setSpeed m v s).sched = s.sched := by
  unfold setSpeed; split <;> rfl
@[simp] theorem setSpeed_bootq (m : Motor) (v : I8) (s : State) : (setSpeed m v s).bootq = s.bootq := by
  unfold setSpeed; split <;> rfl
@[simp] theorem setSpeed_marks (m : Motor) (v : I8) (s : State) : (setSpeed m v s).marks = s.marks := by
  unfold setSpeed; split <;> rfl

/-! ### setDisable -/

@[simp] theorem setDisable_cfg (m : Motor) (b : Bool) (s : State) : (setDisable m b s).cfg = s.cfg := by
  unfold setDisable; split <;> rfl
@[simp] theorem setDisable_en (m : Motor) (b : Bool) (s : State) : (setDisable m b s).en = s.en := by
  unfold setDisable; split <;> rfl
@[simp] theorem setDisable_sample (m : Motor) (b : Bool) (s : State) : (setDisable m b s).sample = s.sample := by
  unfold setDisable; split <;> rfl
@[simp] theorem setDisable_nextCh (m : Motor) (b : Bool) (s : State) : (setDisable m b s).nextCh = s.nextCh := by
  unfold setDisable; split <;> rfl
@[simp] theorem setDisable_adcSel (m : Motor) (b : Bool) (s : State) : (setDisable m b s).adcSel = s.adcSel := by
  unfold setDisable; split <;> rfl
@[simp] theorem setDisable_adcBusy (m : Motor) (b : Bool) (s : State) : (setDisable m b s).adcBusy = s.adcBusy := by
  unfold setDisable; split <;> rfl
@[simp] theorem setDisable_adcResult (m : Motor) (b : Bool) (s : State) : (setDisable m b s).adcResult = s.adcResult := by
  unfold setDisable; split <;> rfl
@[simp] theorem setDisable_irqPending (m : Motor) (b : Bool) (s : State) : (setDisable m b s).irqPending = s.irqPending := by
  unfold setDisable; split <;> rfl
@[simp] theorem setDisable_irqEn (m : Motor) (b : Bool) (s : State) : (setDisable m b s).irqEn = s.irqEn := by
  unfold setDisable; split <;> rfl
@[simp] theorem setDisable_armed (m : Motor) (b : Bool) (s : State) : (setDisable m b s).armed = s.armed := by
  unfold setDisable; split <;> rfl
@[simp] theorem setDisable_lb (m : Motor) (b : Bool) (s : State) : (setDisable m b s).lb = s.lb := by
  unfold setDisable; split <;> rfl
@[simp] theorem setDisable_lblen (m : Motor) (b : Bool) (s : State) : (setDisable m b s).lblen = s.lblen := by
  unfold setDisable; split <;> rfl
@[simp] theorem setDisable_txq (m : Motor) (b : Bool) (s : State) : (setDisable m b s).txq = s.txq := by
  unfold setDisable; split <;> rfl
@[simp] theorem setDisable_booted (m : Motor) (b : Bool) (s : State) : (setDisable m b s).booted = s.booted := by
  unfold setDisable; split <;> rfl
@[simp] theorem setDisable_inq (m : Motor) (b : Bool) (s : State) : (setDisable m b s).inq = s.inq := by
  unfold setDisable; split <;> rfl
@[simp] theorem setDisable_sched (m : Motor) (b : Bool) (s : State) : (setDisable m b s).sched = s.sched := by
  unfold setDisable; split <;> rfl
@[simp] theorem setDisable_bootq (m : Motor) (b : Bool) (s : State) : (setDisable m b s).bootq = s.bootq := by
  unfold setDisable; split <;> rfl
@[simp] theorem setDisable_marks (m : Motor) (b : Bool) (s : State) : (setDisable m b s).marks = s.marks := by
  unfold setDisable; split <;> rfl

/-! ### takeTurn -/

@[simp] theorem takeTurn_cfg (t : Turn) (s : State) : (takeTurn t s).cfg = s.cfg := by cases t <;> rfl
@[simp] theorem takeTurn_drive (t : Turn) (s : State) : (takeTurn t s).drive = s.drive := by cases t <;> rfl
@[simp] theorem takeTurn_en (t : Turn) (s : State) : (takeTurn t s).en = s.en := by cases t <;> rfl
@[simp] theorem takeTurn_sample (t : Turn) (s : State) : (takeTurn t s).sample = s.sample := by cases t <;> rfl
@[simp] theorem takeTurn_nextCh (t : Turn) (s : State) : (takeTurn t s).nextCh = s.nextCh := by cases t <;> rfl
@[simp] theorem takeTurn_adcSel (t : Turn) (s : State) : (takeTurn t s).adcSel = s.adcSel := by cases t <;> rfl
@[simp] theorem takeTurn_adcBusy (t : Turn) (s : State) : (takeTurn t s).adcBusy = s.adcBusy := by cases t <;> rfl
@[simp] theorem takeTurn_adcResult (t : Turn) (s : State) : (takeTurn t s).adcResult = s.adcResult := by cases t <;> rfl
@[simp] theorem takeTurn_irqPending (t : Turn) (s : State) : (takeTurn t s).irqPending = s.irqPending := by cases t <;> rfl
@[simp] theorem takeTurn_irqEn (t : Turn) (s : State) : (takeTurn t s).irqEn = s.irqEn := by cases t <;> rfl
@[simp] theorem takeTurn_armed (t : Turn) (s : State) : (takeTurn t s).armed = s.armed := by cases t <;> rfl
@[simp] theorem takeTurn_lb (t : Turn) (s : State) : (takeTurn t s).lb = s.lb := by cases t <;> rfl
@[simp] theorem takeTurn_lblen (t : Turn) (s : State) : (takeTurn t s).lblen = s.lblen := by cases t <;> rfl
@[simp] theorem takeTurn_txq (t : Turn) (s : State) : (takeTurn t s).txq = s.txq := by cases t <;> rfl
@[simp] theorem takeTurn_booted (t : Turn) (s : State) : (takeTurn t s).booted = s.booted := by cases t <;> rfl
@[simp] theorem takeTurn_inq (t : Turn) (s : State) : (takeTurn t s).inq = s.inq := by cases t <;> rfl
@[simp] theorem takeTurn_bootq (t : Turn) (s : State) :
    (takeTurn t s).bootq = if t = .boot then s.bootq.tail else s.bootq := by
  cases t <;> rfl
@[simp] theorem takeTurn_marks (t : Turn) (s : State) : (takeTurn t s).marks = s.marks := by cases t <;> rfl
@[simp] theorem takeTurn_sched (t : Turn) (s : State) : (takeTurn t s).sched = s.sched := by cases t <;> rfl

/-! ### markRefused -/

@[simp] theorem markRefused_cfg (r : Refusal) (s : State) : (markRefused r s).cfg = s.cfg := rfl
@[simp] theorem markRefused_drive (r : Refusal) (s : State) : (markRefused r s).drive = s.drive := rfl
@[simp] theorem markRefused_en (r : Refusal) (s : State) : (markRefused r s).en = s.en := rfl
@[simp] theorem markRefused_sample (r : Refusal) (s : State) : (markRefused r s).sample = s.sample := rfl
@[simp] theorem markRefused_nextCh (r : Refusal) (s : State) : (markRefused r s).nextCh = s.nextCh := rfl
@[simp] theorem markRefused_adcSel (r : Refusal) (s : State) : (markRefused r s).adcSel = s.adcSel := rfl
@[simp] theorem markRefused_adcBusy (r : Refusal) (s : State) : (markRefused r s).adcBusy = s.adcBusy := rfl
@[simp] theorem markRefused_adcResult (r : Refusal) (s : State) : (markRefused r s).adcResult = s.adcResult := rfl
@[simp] theorem markRefused_irqPending (r : Refusal) (s : State) : (markRefused r s).irqPending = s.irqPending := rfl
@[simp] theorem markRefused_irqEn (r : Refusal) (s : State) : (markRefused r s).irqEn = s.irqEn := rfl
@[simp] theorem markRefused_armed (r : Refusal) (s : State) : (markRefused r s).armed = s.armed := rfl
@[simp] theorem markRefused_lb (r : Refusal) (s : State) : (markRefused r s).lb = s.lb := rfl
@[simp] theorem markRefused_lblen (r : Refusal) (s : State) : (markRefused r s).lblen = s.lblen := rfl
@[simp] theorem markRefused_txq (r : Refusal) (s : State) : (markRefused r s).txq = s.txq := rfl
@[simp] theorem markRefused_booted (r : Refusal) (s : State) : (markRefused r s).booted = s.booted := rfl
@[simp] theorem markRefused_inq (r : Refusal) (s : State) : (markRefused r s).inq = s.inq := rfl
@[simp] theorem markRefused_bootq (r : Refusal) (s : State) : (markRefused r s).bootq = s.bootq := rfl
@[simp] theorem markRefused_marks (r : Refusal) (s : State) : (markRefused r s).marks = s.marks ++ [r] := rfl
@[simp] theorem markRefused_sched (r : Refusal) (s : State) : (markRefused r s).sched = s.sched := rfl

/-! ### powerOn -/

@[simp] theorem powerOn_cfg (s : State) : (powerOn s).cfg = s.cfg := rfl
@[simp] theorem powerOn_drive (s : State) : (powerOn s).drive = Drive.reset s.cfg s.strategy := rfl
@[simp] theorem powerOn_en (s : State) : (powerOn s).en = { m1 := false, m2 := false } := rfl
@[simp] theorem powerOn_sample (s : State) : (powerOn s).sample = { m1 := s.cfg.sampleReset, m2 := s.cfg.sampleReset } := rfl
@[simp] theorem powerOn_nextCh (s : State) : (powerOn s).nextCh = .m1 := rfl
@[simp] theorem powerOn_adcSel (s : State) : (powerOn s).adcSel = .m1 := rfl
@[simp] theorem powerOn_adcBusy (s : State) : (powerOn s).adcBusy = false := rfl
@[simp] theorem powerOn_adcResult (s : State) : (powerOn s).adcResult = 0 := rfl
@[simp] theorem powerOn_irqPending (s : State) : (powerOn s).irqPending = false := rfl
@[simp] theorem powerOn_irqEn (s : State) : (powerOn s).irqEn = false := rfl
@[simp] theorem powerOn_armed (s : State) : (powerOn s).armed = false := rfl
@[simp] theorem powerOn_lb (s : State) : (powerOn s).lb = [] := rfl
@[simp] theorem powerOn_lblen (s : State) : (powerOn s).lblen = 0 := rfl
@[simp] theorem powerOn_txq (s : State) : (powerOn s).txq = [] := rfl
@[simp] theorem powerOn_booted (s : State) : (powerOn s).booted = false := rfl
@[simp] theorem powerOn_inq (s : State) : (powerOn s).inq = s.inq := rfl
@[simp] theorem powerOn_bootq (s : State) : (powerOn s).bootq = bootOps s.cfg := rfl
@[simp] theorem powerOn_marks (s : State) : (powerOn s).marks = s.marks := rfl
@[simp] theorem powerOn_sched (s : State) : (powerOn s).sched = s.sched := rfl

end Sys2Proof.Machine
end

