-- ==== Sys2Proof/Laws/Exec.lean ====
section
/-! SUPPORT. What each shared operation, each meaning and a step can do, said once: later proofs cite these instead of
unfolding the meanings. -/

namespace Sys2Proof.Machine

/-! ### The sets' shared operations -/

theorem setSpeed_of_braking {s : State} {r : PerMotor BrakingRegs} (h : s.drive = .braking r) (m : Motor) (v : I8) :
    setSpeed m v s = { s with drive := .braking (r.set m (brakingSpeed (s.cfg.sign.get m) v)) } := by
  simp only [setSpeed, h]

theorem setSpeed_of_coasting {s : State} {r : PerMotor CoastingRegs} (h : s.drive = .coasting r) (m : Motor) (v : I8) :
    setSpeed m v s = { s with
      drive := .coasting (r.set m (coastingSpeed s.cfg.coastInvert (s.cfg.sign.get m) v (r.get m))) } := by
  simp only [setSpeed, h]

theorem setDisable_of_braking {s : State} {r : PerMotor BrakingRegs} (h : s.drive = .braking r) (m : Motor) (b : Bool) :
    setDisable m b s = s := by
  simp only [setDisable, h]

theorem setDisable_of_coasting {s : State} {r : PerMotor CoastingRegs} (h : s.drive = .coasting r) (m : Motor)
    (b : Bool) : setDisable m b s = { s with drive := .coasting (r.set m { r.get m with hiz := b }) } := by
  simp only [setDisable, h]

theorem disableOrReport_of_braking {s : State} {r : PerMotor BrakingRegs} (h : s.drive = .braking r) (m : Motor)
    (v : I8) : disableOrReport m v s = raiseError .notImplemented s := by
  simp only [disableOrReport, State.strategy, h]

theorem disableOrReport_of_coasting {s : State} {r : PerMotor CoastingRegs} (h : s.drive = .coasting r) (m : Motor)
    (v : I8) : disableOrReport m v s = setDisable m (truth v) s := by
  simp only [disableOrReport, State.strategy, h]

@[simp] theorem setSpeed_strategy (m : Motor) (v : I8) (s : State) : (setSpeed m v s).strategy = s.strategy := by
  cases h : s.drive <;> simp only [setSpeed, State.strategy, h]

@[simp] theorem setDisable_strategy (m : Motor) (b : Bool) (s : State) :
    (setDisable m b s).strategy = s.strategy := by
  cases h : s.drive <;> simp only [setDisable, State.strategy, h]

/-! ### Commands -/

/-- The state a command makes (R212 to R231). No command stops. -/
def commandEffect (c : ParsedCommand) (s : State) : State :=
  match c with
  | .get .m1Speed => answerSpeed .m1 s
  | .get .m2Speed => answerSpeed .m2 s
  | .get .m1Disable => answerDisable .m1 s
  | .get .m2Disable => answerDisable .m2 s
  | .get .m1Current => answerCurrent .m1 s
  | .get .m2Current => answerCurrent .m2 s
  | .set .m1Speed v => setSpeed .m1 v s
  | .set .m2Speed v => setSpeed .m2 v s
  | .set .m1Disable v => disableOrReport .m1 v s
  | .set .m2Disable v => disableOrReport .m2 v s
  | .set .m1Current _ => raiseError .unsupportedAction s
  | .set .m2Current _ => raiseError .unsupportedAction s
  | .get .led1 | .get .led2 | .get .led3 | .get .led4 => raiseError .notImplemented s
  | .set .led1 _ | .set .led2 _ | .set .led3 _ | .set .led4 _ => raiseError .notImplemented s

/-- The parsed command a command form is (R86); an event is none. -/
def commandOf (i : Instr) : Option ParsedCommand :=
  match i.format with
  | .get p _ => some (.get p)
  | .set p v => some (.set p v)
  | .event => none

theorem dispatch_eq (c : ParsedCommand) (s : State) : dispatch c s = .next (commandEffect c s) := by
  cases c with
  | get p => cases p <;> rfl
  | set p v => cases p <;> rfl

/-- `exec` of a command form is the dispatch of its parsed command. -/
theorem exec_of_command {i : Instr} {c : ParsedCommand} (h : commandOf i = some c) (s : State) :
    exec i s = .next (commandEffect c s) := by
  cases i <;> simp only [commandOf, Instr.format, Option.some.injEq, reduceCtorEq] at h <;> subst h <;> rfl

theorem commandOf_of_isCommand {i : Instr} (h : i.isCommand = true) : ∃ c, commandOf i = some c := by
  cases i <;> simp_all [Instr.isCommand, commandOf, Instr.format]

/-- What a command can do: answer and write nothing else, or write one motor's registers and answer nothing. -/
theorem commandEffect_cases (c : ParsedCommand) (s : State) :
    (∃ r, r ≠ [] ∧ commandEffect c s = emit r s) ∨
    (∃ v, (c = .set .m1Speed v ∧ commandEffect c s = setSpeed .m1 v s) ∨
      (c = .set .m2Speed v ∧ commandEffect c s = setSpeed .m2 v s)) ∨
    (∃ v r, s.drive = .coasting r ∧ ((c = .set .m1Disable v ∧ commandEffect c s = setDisable .m1 (truth v) s) ∨
      (c = .set .m2Disable v ∧ commandEffect c s = setDisable .m2 (truth v) s))) := by
  have he : ∀ k : ErrorKind, errorResponse s.cfg k ≠ [] := by
    intro k
    rcases k with ⟨_ | _⟩ | _ | _ | _ | _ <;> simp [errorResponse, invalidResponse, errorPrefix]
  have hv : ∀ w v, valueResponse s.cfg w v ≠ [] := by simp [valueResponse]
  have hg : ∀ m, ∃ r, r ≠ [] ∧ answerDisable m s = emit r s := by
    intro m
    unfold answerDisable getDisable
    split <;> rename_i h <;> split at h <;> first | exact ⟨_, hv _ _, rfl⟩ | exact ⟨_, he _, rfl⟩
  have hs : ∀ m v, (∃ r, s.drive = .coasting r ∧ disableOrReport m v s = setDisable m (truth v) s) ∨
      disableOrReport m v s = raiseError .notImplemented s := by
    intro m v
    cases h : s.drive with
    | braking r => exact .inr (disableOrReport_of_braking h m v)
    | coasting r => exact .inl ⟨r, rfl, disableOrReport_of_coasting h m v⟩
  cases c with
  | get p =>
    left
    cases p <;>
      first
        | exact ⟨_, hv _ _, rfl⟩
        | exact hg .m1
        | exact hg .m2
        | exact ⟨_, he _, rfl⟩
  | set p v =>
    cases p with
    | m1Speed => exact .inr (.inl ⟨v, .inl ⟨rfl, rfl⟩⟩)
    | m2Speed => exact .inr (.inl ⟨v, .inr ⟨rfl, rfl⟩⟩)
    | m1Disable =>
      rcases hs .m1 v with ⟨r, h, e⟩ | h
      · exact .inr (.inr ⟨v, r, h, .inl ⟨rfl, e⟩⟩)
      · exact .inl ⟨_, he _, h⟩
    | m2Disable =>
      rcases hs .m2 v with ⟨r, h, e⟩ | h
      · exact .inr (.inr ⟨v, r, h, .inr ⟨rfl, e⟩⟩)
      · exact .inl ⟨_, he _, h⟩
    | led1 => exact .inl ⟨_, he _, rfl⟩
    | led2 => exact .inl ⟨_, he _, rfl⟩
    | led3 => exact .inl ⟨_, he _, rfl⟩
    | led4 => exact .inl ⟨_, he _, rfl⟩
    | m1Current => exact .inl ⟨_, he _, rfl⟩
    | m2Current => exact .inl ⟨_, he _, rfl⟩

/-- The same, field by field: a command changes `TXQ` and the Motor Driver's registers only. -/
theorem commandEffect_eq (c : ParsedCommand) (s : State) :
    commandEffect c s = { s with drive := (commandEffect c s).drive, txq := (commandEffect c s).txq } := by
  rcases commandEffect_cases c s with ⟨r, -, h⟩ | ⟨v, ⟨-, h⟩ | ⟨-, h⟩⟩ | ⟨v, r, hd, ⟨-, h⟩ | ⟨-, h⟩⟩ <;> rw [h]
  · rfl
  · unfold setSpeed; split <;> rfl
  · unfold setSpeed; split <;> rfl
  · rw [setDisable_of_coasting hd]
  · rw [setDisable_of_coasting hd]

/-! ### Line input -/

theorem interpret_ok {L : List Byte} {c : ParsedCommand} (h : parseLine L = .ok c) (s : State) :
    interpret L s = .next (commandEffect c s) := by
  simp only [interpret, h, dispatch_eq]

theorem interpret_error {L : List Byte} {k : ErrorKind} (h : parseLine L = .error k) (s : State) :
    interpret L s = .next (raiseError k s) := by
  simp only [interpret, h]

/-- What a line's interpretation can be. -/
theorem interpret_cases (L : List Byte) (s : State) :
    (∃ c, parseLine L = .ok c ∧ interpret L s = .next (commandEffect c s)) ∨
    (∃ k, parseLine L = .error k ∧ interpret L s = .next (raiseError k s)) := by
  cases h : parseLine L with
  | ok c => exact .inl ⟨c, rfl, interpret_ok h s⟩
  | error k => exact .inr ⟨k, rfl, interpret_error h s⟩

theorem processLine_empty {s : State} (h : s.lblen = 0) : processLine s = .next (awaitNextLine s) := by
  simp only [processLine, h, if_true]

theorem processLine_line {s : State} {L : List Byte} (h : s.lblen ≠ 0) (hL : currentLine s = .ok L) :
    processLine s = endLine (interpret L s) := by
  simp only [processLine, h, if_false, hL]

/-- What `ProcessLine` can do. -/
theorem processLine_cases (s : State) :
    (s.lblen = 0 ∧ processLine s = .next (awaitNextLine s)) ∨
    (∃ L c, s.lblen ≠ 0 ∧ currentLine s = .ok L ∧ parseLine L = .ok c ∧
      processLine s = .next (awaitNextLine (commandEffect c s))) ∨
    (∃ L k, s.lblen ≠ 0 ∧ currentLine s = .ok L ∧ parseLine L = .error k ∧
      processLine s = .next (awaitNextLine (raiseError k s))) ∨
    (∃ n, s.lblen ≠ 0 ∧ currentLine s = .error (.lineBufferOffset n) ∧
      processLine s = .fault (.lineBufferOffset n)) := by
  by_cases h0 : s.lblen = 0
  · exact .inl ⟨h0, processLine_empty h0⟩
  · rcases memReads_cases s 0 s.lblen with h | ⟨n, h⟩
    · have hL : currentLine s = .ok _ := h
      rcases interpret_cases (Memory.block s.lb 0 s.lblen) s with ⟨c, hc, h'⟩ | ⟨k, hk, h'⟩
      · exact .inr (.inl ⟨_, c, h0, hL, hc, by rw [processLine_line h0 hL, h', endLine]⟩)
      · exact .inr (.inr (.inl ⟨_, k, h0, hL, hk, by rw [processLine_line h0 hL, h', endLine]⟩))
    · have hL : currentLine s = .error _ := h
      exact .inr (.inr (.inr ⟨n, h0, hL, by simp only [processLine, h0, if_false, hL]⟩))

/-- The printable class is the printable range, and CR and LF are outside it. -/
theorem classify_printable {b : Byte} : classify b = .printable ↔ isPrintable b = true := by
  have hcr : Ascii.cr.toNat = 0x0D := rfl
  have hlf : Ascii.lf.toNat = 0x0A := rfl
  unfold classify isPrintable
  split
  · rename_i h
    have : b.toNat = 0x0D ∨ b.toNat = 0x0A := by rcases h with rfl | rfl <;> decide
    simp; omega
  · split <;> simp_all

theorem classify_terminator {b : Byte} : classify b = .terminator ↔ b = Ascii.cr ∨ b = Ascii.lf := by
  unfold classify
  split
  · simpa using ‹_›
  · split <;> simp_all

/-- What a received byte can do, when FG has a step. -/
theorem execEvRxByte_cases (b : Byte) (s : State) :
    (rxEnabled b s = false ∧ execEvRxByte b s = .fault (.noStep .fg)) ∨
    (rxEnabled b s = true ∧ classify b = .terminator ∧ execEvRxByte b s = processLine (popIn s)) ∨
    (rxEnabled b s = true ∧ classify b = .printable ∧ execEvRxByte b s = .next (acceptByte b (popIn s))) ∨
    (rxEnabled b s = true ∧ classify b = .dropped ∧ execEvRxByte b s = .next (popIn s)) := by
  unfold execEvRxByte receive
  cases h : rxEnabled b s <;> cases hc : classify b <;> simp

theorem rxEnabled_iff {b : Byte} {s : State} :
    rxEnabled b s = true ↔ s.booted = true ∧ s.inq.head? = some b := by
  simp [rxEnabled]

/-- When FG has a step, the byte is taken off `IN` and received. -/
theorem exec_evRxByte_enabled {b : Byte} {s : State} {l : List Byte} (hb : s.booted = true) (hq : s.inq = b :: l) :
    exec (.evRxByte b) s = receive b { s with inq := l } := by
  have hr : rxEnabled b s = true := by simp [rxEnabled, hb, hq]
  have hp : popIn s = { s with inq := l } := by simp [popIn, hq]
  show execEvRxByte b s = _
  rw [execEvRxByte, if_pos hr, hp]

/-- What a received byte's next state can be: the byte is taken, and the line is filled, emptied or processed. -/
theorem exec_evRxByte_next {b : Byte} {s t : State} (h : exec (.evRxByte b) s = .next t) :
    rxEnabled b s = true ∧
      (t = popIn s ∨ t = awaitNextLine (popIn s) ∨ (∃ c, t = awaitNextLine (commandEffect c (popIn s))) ∨
        (∃ k, t = awaitNextLine (raiseError k (popIn s))) ∨
        (classify b = .printable ∧ t = acceptByte b (popIn s))) := by
  have h : execEvRxByte b s = .next t := h
  rcases execEvRxByte_cases b s with ⟨-, e⟩ | ⟨hr, -, e⟩ | ⟨hr, hc, e⟩ | ⟨hr, -, e⟩ <;> rw [e] at h
  · cases h
  · rcases processLine_cases (popIn s) with ⟨-, e⟩ | ⟨L, c, -, -, -, e⟩ | ⟨L, k, -, -, -, e⟩ | ⟨n, -, -, e⟩ <;>
      rw [e] at h <;> cases h
    · exact ⟨hr, by simp⟩
    · exact ⟨hr, .inr (.inr (.inl ⟨c, rfl⟩))⟩
    · exact ⟨hr, .inr (.inr (.inr (.inl ⟨k, rfl⟩)))⟩
  · cases h; exact ⟨hr, by simp [hc]⟩
  · cases h; exact ⟨hr, by simp⟩

/-! ### The guards -/

theorem adcEnabled_iff {s : State} : adcEnabled s = true ↔ s.adcBusy = true ∧ s.irqPending = false := by
  simp [adcEnabled]

theorem adcInRange_iff {c : Config} {a : U16} : adcInRange c a = true ↔ a.toNat < 2 ^ c.adcBits := by
  simp [adcInRange]

theorem irqEnabled_iff {s : State} : irqEnabled s = true ↔ s.irqPending = true ∧ s.irqEn = true := by
  simp [irqEnabled]

theorem connectAllowed_iff {s : State} : connectAllowed s = true ↔ s.booted = false ∧ s.irqEn = false := by
  simp [connectAllowed]

theorem armAllowed_iff {s : State} :
    armAllowed s = true ↔ s.booted = false ∧ s.armed = false ∧ s.irqEn = true := by
  simp [armAllowed, and_assoc]

theorem enableAllowed_iff {s : State} : enableAllowed s = true ↔ s.booted = false := by
  simp [enableAllowed]

theorem doneAllowed_iff {s : State} : doneAllowed s = true ↔ s.booted = false ∧ s.armed = true := by
  simp [doneAllowed]

/-! ### The other events -/

/-- What an event that is no received byte does, when it answers a next state. -/
theorem exec_event_next {i : Instr} {s t : State} (hi : i.isCommand = false) (hn : ∀ b, i ≠ .evRxByte b)
    (h : exec i s = .next t) :
    (∃ a, i = .evAdcDone a ∧ adcEnabled s = true ∧ adcInRange s.cfg a = true ∧
      t = { s with adcResult := a, adcBusy := false, irqPending := true }) ∨
    (i = .isrConvComplete ∧ irqEnabled s = true ∧ t = convComplete s) ∨
    (i = .bootConnect ∧ connectAllowed s = true ∧ t = { s with irqEn := true }) ∨
    (i = .bootArm ∧ armAllowed s = true ∧
      t = { s with nextCh := .m1, adcSel := .m1, adcBusy := true, armed := true }) ∨
    (∃ m e, i = .bootEnable m e ∧ enableAllowed s = true ∧ t = setEnable m e s) ∨
    (i = .bootDone ∧ doneAllowed s = true ∧ t = { s with booted := true }) := by
  cases i <;> cases hi
  case evRxByte b => exact absurd rfl (hn b)
  case bootEnable m e =>
    simp only [exec, execBootEnable] at h
    split at h <;> cases h
    exact .inr (.inr (.inr (.inr (.inl ⟨m, e, rfl, ‹_›, rfl⟩))))
  all_goals
    simp only [exec, execEvAdcDone, execIsrConvComplete, takeInterrupt, execBootConnect, execBootArm,
      execBootDone] at h
    repeat (split at h)
    all_goals cases h
    all_goals simp_all [startConversion]

/-! ### A step -/

theorem runTurn_of_fetch {t : Turn} {s : State} {i : Instr} (h : fetch t s = some i) :
    runTurn t s = settle (takeTurn t s) (exec i (takeTurn t s)) := by
  simp only [runTurn, h]

theorem runTurn_of_world {t : Turn} {s : State} (h : fetch t s = none) : runTurn t s = .next (worldTurn t s) := by
  simp only [runTurn, h]

theorem step_nil {s : State} (h : s.sched = []) : step s = .next s := by
  simp only [step, h]

theorem step_cons {s : State} {t : Turn} {rest : List Turn} (h : s.sched = t :: rest) :
    step s = runTurn t { s with sched := rest } := by
  simp only [step, h]

/-- What a turn can do when it answers a next state: the world's act, its instruction's meaning, an idle turn, or a
refusal marked. -/
theorem runTurn_next {t : Turn} {s u : State} (h : runTurn t s = .next u) :
    (fetch t s = none ∧ u = worldTurn t s) ∨
    (∃ i, fetch t s = some i ∧ exec i (takeTurn t s) = .next u) ∨
    (∃ i a, fetch t s = some i ∧ exec i (takeTurn t s) = .fault (.noStep a) ∧ u = takeTurn t s) ∨
    (∃ i r, fetch t s = some i ∧ exec i (takeTurn t s) = .refused r ∧ u = markRefused r (takeTurn t s)) := by
  cases hf : fetch t s with
  | none =>
    rw [runTurn_of_world hf] at h
    exact .inl ⟨rfl, by injection h with h; exact h.symm⟩
  | some i =>
    rw [runTurn_of_fetch hf] at h
    cases he : exec i (takeTurn t s) with
    | next v => rw [he] at h; exact .inr (.inl ⟨i, rfl, by rw [he]; exact h⟩)
    | refused r => rw [he] at h; exact .inr (.inr (.inr ⟨i, r, rfl, he, by injection h with h; exact h.symm⟩))
    | fault f =>
      rw [he] at h
      cases f with
      | noStep a => exact .inr (.inr (.inl ⟨i, a, rfl, he, by injection h with h; exact h.symm⟩))
      | lineBufferOffset n => cases h

/-- The instruction of a turn is an event (R80): commands run only inside a received terminator. -/
theorem fetch_isEvent {t : Turn} {s : State} {i : Instr} (h : fetch t s = some i) : i.isCommand = false := by
  cases t with
  | fg =>
    cases hq : s.inq with
    | nil => simp [fetch, hq] at h
    | cons b l => simp [fetch, hq] at h; subst h; rfl
  | isr => cases h; rfl
  | adc a => cases h; rfl
  | boot =>
    cases hq : s.bootq with
    | nil => simp [fetch, hq] at h
    | cons op l => simp [fetch, hq] at h; subst h; cases op <;> rfl
  | send b => cases h
  | take => cases h
  | powerOn => cases h

/-! ### Runs -/

/-- One step of a run. -/
theorem run_of_step {s t : State} (h : step s = .next t) (n : Nat) : core.run (n + 1) s = core.run n t := by
  have h' : core.step s = .next t := h
  simp only [Host.Core.run, h']

/-- A run goes on from where a shorter run ended. -/
theorem run_add {s t : State} {n : Nat} (h : core.run n s = .next t) (m : Nat) :
    core.run (n + m) s = core.run m t := by
  induction n generalizing s with
  | zero => cases h; rw [Nat.zero_add]
  | succ n ih =>
    rw [Nat.add_right_comm]
    simp only [Host.Core.run] at h ⊢
    split at h
    · exact ih h
    · cases h
    · cases h

end Sys2Proof.Machine
end

