-- ==== Sys2Proof/Laws/Parse.lean ====
section
/-! SUPPORT. The laws of the tokenizer, the name tables and the numerals: what each answers, said once. -/

namespace Sys2Proof

/-! ### Tokens (R181) -/

/-- A token and what follows it are split where the first SP stands. -/
theorem splitSp_token {t : List Byte} (h : Ascii.sp ∉ t) (r : Option (List Byte)) :
    splitSp (t ++ tailBytes r) = (t, r) := by
  induction t with
  | nil => cases r <;> simp [tailBytes, splitSp]
  | cons b l ih =>
    have hb : b ≠ Ascii.sp := fun e => h (by simp [e])
    have hl : Ascii.sp ∉ l := fun e => h (by simp [e])
    simp [splitSp, hb, ih hl]

/-- Splitting loses nothing. -/
theorem splitSp_join (L : List Byte) : L = (splitSp L).1 ++ tailBytes (splitSp L).2 := by
  induction L with
  | nil => rfl
  | cons b l ih =>
    by_cases hb : b = Ascii.sp
    · simp [splitSp, hb, tailBytes]
    · simp only [splitSp, hb, if_false, List.cons_append]
      exact congrArg _ ih

/-- A token holds no SP. -/
theorem splitSp_no_sp (L : List Byte) : Ascii.sp ∉ (splitSp L).1 := by
  induction L with
  | nil => simp [splitSp]
  | cons b l ih =>
    by_cases hb : b = Ascii.sp
    · simp [splitSp, hb]
    · have hb' : ¬ Ascii.sp = b := fun e => hb e.symm
      simp [splitSp, hb, hb', ih]

/-! ### Names (R83, R84) -/

@[simp] theorem cmdGet_no_sp : Ascii.sp ∉ cmdGet := by decide

@[simp] theorem cmdSet_no_sp : Ascii.sp ∉ cmdSet := by decide

@[simp] theorem cmdSet_ne_cmdGet : cmdSet ≠ cmdGet := by decide

@[simp] theorem name_no_sp (p : PropertyId) : Ascii.sp ∉ p.name := by cases p <;> decide

@[simp] theorem name_ne_nil (p : PropertyId) : p.name ≠ [] := by cases p <;> decide

@[simp] theorem name_length (p : PropertyId) : p.name.length = p.nameLen := by cases p <;> rfl

theorem name_printable (p : PropertyId) : ∀ b ∈ p.name, isPrintable b = true := by cases p <;> decide

@[simp] theorem lookupProp_name (p : PropertyId) : lookupProp p.name = some p := by cases p <;> decide

/-- A token names a property exactly when it is that property's name. -/
theorem lookupProp_eq_some {t : List Byte} {p : PropertyId} : lookupProp t = some p ↔ t = p.name := by
  constructor
  · intro h
    have := List.find?_some h
    simpa using (beq_iff_eq.mp this).symm
  · rintro rfl; exact lookupProp_name p

theorem lookupProp_eq_none {t : List Byte} : lookupProp t = none ↔ ∀ p : PropertyId, t ≠ p.name := by
  constructor
  · rintro h p rfl; simp at h
  · intro h
    cases hp : lookupProp t with
    | none => rfl
    | some p => exact absurd (lookupProp_eq_some.mp hp) (h p)

/-! ### The parser's steps (R180) -/

theorem parseLine_get (r : Option (List Byte)) : parseLine (cmdGet ++ tailBytes r) = parseStep2 false r := by
  simp [parseLine, splitSp_token]

theorem parseLine_set (r : Option (List Byte)) : parseLine (cmdSet ++ tailBytes r) = parseStep2 true r := by
  simp [parseLine, splitSp_token]

theorem parseLine_other {C : List Byte} (h : Ascii.sp ∉ C) (hg : C ≠ cmdGet) (hs : C ≠ cmdSet)
    (r : Option (List Byte)) : parseLine (C ++ tailBytes r) = .error (.unknownToken .cmd) := by
  simp [parseLine, splitSp_token h, hg, hs]

theorem parseStep2_empty (isSet : Bool) (r : Option (List Byte)) :
    parseStep2 isSet (some (tailBytes r)) = .error .missingParameter := by
  have := splitSp_token (t := []) (by simp) r
  simp only [List.nil_append] at this
  simp [parseStep2, this]

theorem parseStep2_name (isSet : Bool) (p : PropertyId) (r : Option (List Byte)) :
    parseStep2 isSet (some (p.name ++ tailBytes r)) = if isSet then parseStep3 p r else .ok (.get p) := by
  simp only [parseStep2, splitSp_token (name_no_sp p) r]
  cases hn : p.name with
  | nil => exact absurd hn (name_ne_nil p)
  | cons b l => simp only [← hn, lookupProp_name]

theorem parseStep2_unknown (isSet : Bool) {T : List Byte} (h : Ascii.sp ∉ T) (h0 : T ≠ [])
    (hn : ∀ p : PropertyId, T ≠ p.name) (r : Option (List Byte)) :
    parseStep2 isSet (some (T ++ tailBytes r)) = .error (.unknownToken .prop) := by
  simp only [parseStep2, splitSp_token h]
  cases T with
  | nil => exact absurd rfl h0
  | cons b l => simp only [lookupProp_eq_none.mpr hn]

/-! ### Numerals (R85, R189) -/

theorem digit_lt {d : Byte} (h : Ascii.isDigit d = true) : 0x30 ≤ d.toNat ∧ d.toNat ≤ 0x39 := by
  simpa [Ascii.isDigit] using h

/-- The Horner sum of the digits is their place-value sum. -/
theorem magnitude_eq {l : List Byte} (h : ∀ d ∈ l, Ascii.isDigit d = true) (acc : Nat) :
    magnitude acc l = some (acc * 10 ^ l.length + decimalValue l) := by
  induction l generalizing acc with
  | nil => simp [magnitude, decimalValue]
  | cons d l ih =>
    have hd := h d (by simp)
    have hl : ∀ e ∈ l, Ascii.isDigit e = true := fun e he => h e (by simp [he])
    have h1 : (acc * 10 + (d.toNat - 48)) * 10 ^ l.length
        = acc * (10 ^ l.length * 10) + (d.toNat - 48) * 10 ^ l.length := by
      rw [Nat.add_mul, Nat.mul_assoc, Nat.mul_comm 10]
    simp only [magnitude, hd, if_true, ih hl, decimalValue, List.length_cons, Nat.pow_succ, Option.some.injEq]
    omega

/-- A byte that is no digit ends the numeral with an error. -/
theorem magnitude_none {l : List Byte} (h : ∃ d ∈ l, Ascii.isDigit d = false) (acc : Nat) : magnitude acc l = none := by
  induction l generalizing acc with
  | nil => simp at h
  | cons d l ih =>
    by_cases hd : Ascii.isDigit d = true
    · have : ∃ e ∈ l, Ascii.isDigit e = false := by
        obtain ⟨e, he, h'⟩ := h
        rcases List.mem_cons.mp he with rfl | he
        · rw [hd] at h'; cases h'
        · exact ⟨e, he, h'⟩
      simp [magnitude, hd, ih this]
    · simp [magnitude, hd]

theorem narrowValue_eq_some {v : Int} {w : I8} : narrowValue v = some w ↔ w.toInt = v := by
  unfold narrowValue
  have h1 := BitVec.toInt_lt (x := w)
  have h2 := BitVec.le_toInt (x := w)
  constructor
  · intro h
    split at h
    · injection h with h
      subst h
      rw [BitVec.toInt_ofInt]
      apply Int.bmod_eq_of_le <;> omega
    · cases h
  · intro h
    have hr : -128 ≤ v ∧ v ≤ 127 := by omega
    rw [if_pos hr]
    subst h
    simp

/-- The parser accepts a value exactly when the field is a numeral with that value. -/
theorem parseValue_eq_some {V : List Byte} {v : I8} : parseValue V = some v ↔ IsNumeral V v := by
  have hV : V = (if (splitSign V).1 then Ascii.dash :: (splitSign V).2 else (splitSign V).2) := by
    cases V with
    | nil => rfl
    | cons c l => by_cases hc : c = Ascii.dash <;> simp [splitSign, hc]
  constructor
  · intro h
    unfold parseValue at h
    split at h
    · cases h
    · rename_i hne
      split at h
      · cases h
      · rename_i mag hmag
        by_cases hall : ∀ d ∈ (splitSign V).2, Ascii.isDigit d = true
        · rw [magnitude_eq hall] at hmag
          injection hmag with hmag
          refine ⟨(splitSign V).1, (splitSign V).2, hne, hall, hV, ?_⟩
          rw [narrowValue_eq_some.mp h]
          simp only [Nat.zero_mul, Nat.zero_add] at hmag
          rw [hmag]
        · have hno : ∃ d ∈ (splitSign V).2, Ascii.isDigit d = false := by
            simpa using hall
          rw [magnitude_none hno] at hmag
          cases hmag
  · rintro ⟨neg, ds, hne, hall, rfl, hv⟩
    have hs : splitSign (if neg then Ascii.dash :: ds else ds) = (neg, ds) := by
      cases neg with
      | true => simp [splitSign]
      | false =>
        cases ds with
        | nil => exact absurd rfl hne
        | cons d l =>
          have hd : d ≠ Ascii.dash := by
            rintro rfl
            exact absurd (hall Ascii.dash (by simp)) (by decide)
          simp [splitSign, hd]
    unfold parseValue
    rw [hs]
    cases ds with
    | nil => exact absurd rfl hne
    | cons d l =>
      simp only [magnitude_eq hall, Nat.zero_mul, Nat.zero_add]
      exact narrowValue_eq_some.mpr hv

/-! ### The encoder's digits -/

@[simp] theorem digitsFixed_length (base k v : Nat) : (digitsFixed base k v).length = k := by
  induction k generalizing v with
  | zero => rfl
  | succ k ih => simp [digitsFixed, ih]

theorem digit_printable : ∀ d : Fin 16, isPrintable (Ascii.digit d) = true := by decide

theorem digitsFixed_printable {base : Nat} (hb : 0 < base) (hb' : base ≤ 16) (k v : Nat) :
    ∀ b ∈ digitsFixed base k v, isPrintable b = true := by
  induction k generalizing v with
  | zero => simp [digitsFixed]
  | succ k ih =>
    intro b h
    rcases List.mem_append.mp h with h | h
    · exact ih _ b h
    · rw [List.mem_singleton.mp h]
      have : v % base < 16 := Nat.lt_of_lt_of_le (Nat.mod_lt v hb) hb'
      exact digit_printable ⟨v % base, this⟩

/-- Stripping leading zeros keeps a suffix of the digits. -/
theorem stripZeros_suffix (l : List Byte) : stripZeros l <:+ l := by
  induction l with
  | nil => exact List.suffix_refl _
  | cons d l ih =>
    cases l with
    | nil => exact List.suffix_refl _
    | cons e l =>
      unfold stripZeros
      split
      · exact ih.trans (List.suffix_cons d _)
      · exact List.suffix_refl _

theorem stripZeros_ne_nil {l : List Byte} (h : l ≠ []) : stripZeros l ≠ [] := by
  induction l with
  | nil => exact absurd rfl h
  | cons d l ih =>
    cases l with
    | nil => simp [stripZeros]
    | cons e l =>
      unfold stripZeros
      split
      · exact ih (by simp)
      · simp

/-- The shortest numeral of a value parses to it (all 256 values). -/
theorem parseValue_decimal (v : I8) : parseValue (decimal v) = some v := by
  have h : ∀ n : Fin 256, parseValue (decimal (BitVec.ofFin n)) = some (BitVec.ofFin n) := by decide +kernel
  exact h v.toFin

theorem decimal_length (v : I8) : (decimal v).length = valueLen v := by
  have h : ∀ n : Fin 256, (decimal (BitVec.ofFin n)).length = valueLen (BitVec.ofFin n) := by decide +kernel
  exact h v.toFin

theorem decimal_printable (v : I8) : ∀ b ∈ decimal v, isPrintable b = true := by
  intro b h
  rcases List.mem_append.mp h with h | h
  · split at h
    · rw [List.mem_singleton.mp h]; decide
    · cases h
  · exact digitsFixed_printable (by decide) (by decide) _ _ b ((stripZeros_suffix _).subset h)

end Sys2Proof
end

