-- ==== Sys2Proof/Laws/PerInstr.lean ====
section
/-! SUPPORT. Facts about every instruction as syntax, one lemma per constructor. Family `LineForm`: the line of a
well-formed command is not empty, fits the line buffer and is printable (spec/30_encoding.md R80, R82); an event
has no line (R94). -/

namespace Sys2Proof.Laws

/-- What the family says of one instruction. -/
def LineForm.Statement (i : Instr) : Prop :=
  ∀ (c : Config) (L : List Byte), i.wf c = true → encode i = some L →
    L ≠ [] ∧ L.length ≤ c.lineCap ∧ ∀ b ∈ L, isPrintable b = true

theorem lineForm_of_get {i : Instr} {p : PropertyId} {t : Option (List Byte)} (h : i.format = .get p t) :
    LineForm.Statement i := by
  intro c L hw he
  simp only [Instr.wf, h] at hw
  simp only [encode, h, Option.some.injEq] at he
  subst he
  refine ⟨by simp [cmdGet], ?_, fun b hb => ?_⟩
  · cases t with
    | none => simp [getFits] at hw; simp [cmdGet, tailBytes]; omega
    | some t => simp [getFits] at hw; simp [cmdGet, tailBytes]; omega
  · have ht : ∀ b ∈ tailBytes t, isPrintable b = true := by
      cases t with
      | none => simp [tailBytes]
      | some t =>
        simp [getFits] at hw
        intro b hb
        rcases List.mem_cons.mp hb with rfl | hb
        · decide
        · exact hw.2 b hb
    have hg : ∀ b ∈ cmdGet, isPrintable b = true := by decide
    rcases List.mem_append.mp hb with hb | hb
    · exact hg b hb
    · rcases List.mem_cons.mp hb with rfl | hb
      · decide
      · rcases List.mem_append.mp hb with hb | hb
        · exact name_printable p b hb
        · exact ht b hb

theorem lineForm_of_set {i : Instr} {p : PropertyId} {v : I8} (h : i.format = .set p v) : LineForm.Statement i := by
  intro c L hw he
  simp only [Instr.wf, h, setFits, decide_eq_true_eq] at hw
  simp only [encode, h, Option.some.injEq] at he
  subst he
  refine ⟨by simp [cmdSet], ?_, fun b hb => ?_⟩
  · simp [cmdSet, decimal_length]; omega
  · have hs : ∀ b ∈ cmdSet, isPrintable b = true := by decide
    rcases List.mem_append.mp hb with hb | hb
    · exact hs b hb
    · rcases List.mem_cons.mp hb with rfl | hb
      · decide
      · rcases List.mem_append.mp hb with hb | hb
        · exact name_printable p b hb
        · rcases List.mem_cons.mp hb with rfl | hb
          · decide
          · exact decimal_printable v b hb

theorem lineForm_of_event {i : Instr} (h : i.format = .event) : LineForm.Statement i := by
  intro c L _ he
  simp [encode, h] at he

theorem LineForm.getM1speed (t : Option (List Byte)) : LineForm.Statement (.getM1speed t) := lineForm_of_get rfl

theorem LineForm.getM2speed (t : Option (List Byte)) : LineForm.Statement (.getM2speed t) := lineForm_of_get rfl

theorem LineForm.getM1disable (t : Option (List Byte)) : LineForm.Statement (.getM1disable t) := lineForm_of_get rfl

theorem LineForm.getM2disable (t : Option (List Byte)) : LineForm.Statement (.getM2disable t) := lineForm_of_get rfl

theorem LineForm.getLed1 (t : Option (List Byte)) : LineForm.Statement (.getLed1 t) := lineForm_of_get rfl

theorem LineForm.getLed2 (t : Option (List Byte)) : LineForm.Statement (.getLed2 t) := lineForm_of_get rfl

theorem LineForm.getLed3 (t : Option (List Byte)) : LineForm.Statement (.getLed3 t) := lineForm_of_get rfl

theorem LineForm.getLed4 (t : Option (List Byte)) : LineForm.Statement (.getLed4 t) := lineForm_of_get rfl

theorem LineForm.getM1current (t : Option (List Byte)) : LineForm.Statement (.getM1current t) := lineForm_of_get rfl

theorem LineForm.getM2current (t : Option (List Byte)) : LineForm.Statement (.getM2current t) := lineForm_of_get rfl

theorem LineForm.setM1speed (v : I8) : LineForm.Statement (.setM1speed v) := lineForm_of_set rfl

theorem LineForm.setM2speed (v : I8) : LineForm.Statement (.setM2speed v) := lineForm_of_set rfl

theorem LineForm.setM1disable (v : I8) : LineForm.Statement (.setM1disable v) := lineForm_of_set rfl

theorem LineForm.setM2disable (v : I8) : LineForm.Statement (.setM2disable v) := lineForm_of_set rfl

theorem LineForm.setLed1 (v : I8) : LineForm.Statement (.setLed1 v) := lineForm_of_set rfl

theorem LineForm.setLed2 (v : I8) : LineForm.Statement (.setLed2 v) := lineForm_of_set rfl

theorem LineForm.setLed3 (v : I8) : LineForm.Statement (.setLed3 v) := lineForm_of_set rfl

theorem LineForm.setLed4 (v : I8) : LineForm.Statement (.setLed4 v) := lineForm_of_set rfl

theorem LineForm.setM1current (v : I8) : LineForm.Statement (.setM1current v) := lineForm_of_set rfl

theorem LineForm.setM2current (v : I8) : LineForm.Statement (.setM2current v) := lineForm_of_set rfl

theorem LineForm.evRxByte (b : Byte) : LineForm.Statement (.evRxByte b) := lineForm_of_event rfl

theorem LineForm.evAdcDone (a : U16) : LineForm.Statement (.evAdcDone a) := lineForm_of_event rfl

theorem LineForm.isrConvComplete : LineForm.Statement .isrConvComplete := lineForm_of_event rfl

theorem LineForm.bootConnect : LineForm.Statement .bootConnect := lineForm_of_event rfl

theorem LineForm.bootArm : LineForm.Statement .bootArm := lineForm_of_event rfl

theorem LineForm.bootEnable (m : Motor) (e : Bool) : LineForm.Statement (.bootEnable m e) := lineForm_of_event rfl

theorem LineForm.bootDone : LineForm.Statement .bootDone := lineForm_of_event rfl

end Sys2Proof.Laws
end

