-- ==== Sys2Proof/Tests/Slice0.lean ====
section
/-! SUPPORT. The model's own tests: ill-formed terms are refused, lines written out from the byte tables of
spec/30_encoding.md decode to the commands they stand for, single steps give the vectors of spec/95_test_vectors.md, and
for every statement with hypotheses a state and operands that meet them. -/

namespace Sys2Proof.Tests

open Sys2Proof.Machine

/-! ### Well-formedness smoke -/

/-- Parameters with a line buffer of `n` bytes. -/
def capped (n : Nat) : Config := { Config.default with lineCap := n }

-- format G: 4 + 7 bytes fit a buffer of 11, and not one of 10 (R82)
theorem test_wf_get_fits : (Instr.getM1speed none).wf (capped 11) = true := by decide
theorem test_wf_get_too_long : (Instr.getM1speed none).wf (capped 10) = false := by decide
-- with a tail: 4 + 4 + 1 + t
theorem test_wf_tail_fits : (Instr.getLed1 (some (List.replicate 118 0x78))).wf Config.default = true := by
  decide
theorem test_wf_tail_too_long : (Instr.getLed1 (some (List.replicate 119 0x78))).wf Config.default = false := by
  decide
theorem test_wf_tail_not_printable : (Instr.getLed1 (some [0x78, 0x0D])).wf Config.default = false := by decide
-- format S: 5 + 9 + 4 bytes for `set m1disable -128`
theorem test_wf_set_fits : (Instr.setM1disable 0x80).wf (capped 18) = true := by decide
theorem test_wf_set_too_long : (Instr.setM1disable 0x80).wf (capped 17) = false := by decide
-- EV_ADC_DONE: 0..1023 (R112)
theorem test_wf_draw_fits : (Instr.evAdcDone 1023).wf Config.default = true := by decide
theorem test_wf_draw_too_large : (Instr.evAdcDone 1024).wf Config.default = false := by decide
-- parameters (R7, R26, R253)
theorem test_wf_default : Config.default.wf = true := by decide
theorem test_wf_resolution_too_wide : { Config.default with adcBits := 17 }.wf = false := by decide
theorem test_wf_sample_reset_out_of_range : { Config.default with sampleReset := 1024 }.wf = false := by decide
theorem test_wf_text_not_printable :
    { Config.default with errText := { ErrText.default with unknownToken := [0x0D] } }.wf = false ∧
    { Config.default with errText := { ErrText.default with missingParameter := [0x0A] } }.wf = false ∧
    { Config.default with errText := { ErrText.default with invalidInteger := [0x1F] } }.wf = false ∧
    { Config.default with errText := { ErrText.default with notImplemented := [0x7F] } }.wf = false ∧
    { Config.default with errText := { ErrText.default with unsupportedAction := [0x80] } }.wf = false := by decide

/-! ### Decoding: one line per command form, from the bytes of R82 to R85 -/

-- get m1speed
theorem test_decode_get_m1speed : decode
    [0x67, 0x65, 0x74, 0x20, 0x6D, 0x31, 0x73, 0x70, 0x65, 0x65, 0x64]
    = .ok (.getM1speed none) := rfl
-- get m2speed
theorem test_decode_get_m2speed : decode
    [0x67, 0x65, 0x74, 0x20, 0x6D, 0x32, 0x73, 0x70, 0x65, 0x65, 0x64]
    = .ok (.getM2speed none) := rfl
-- get m1disable
theorem test_decode_get_m1disable : decode
    [0x67, 0x65, 0x74, 0x20, 0x6D, 0x31, 0x64, 0x69, 0x73, 0x61, 0x62, 0x6C, 0x65]
    = .ok (.getM1disable none) := rfl
-- get m2disable
theorem test_decode_get_m2disable : decode
    [0x67, 0x65, 0x74, 0x20, 0x6D, 0x32, 0x64, 0x69, 0x73, 0x61, 0x62, 0x6C, 0x65]
    = .ok (.getM2disable none) := rfl
-- get led1
theorem test_decode_get_led1 : decode
    [0x67, 0x65, 0x74, 0x20, 0x6C, 0x65, 0x64, 0x31]
    = .ok (.getLed1 none) := rfl
-- get led2
theorem test_decode_get_led2 : decode
    [0x67, 0x65, 0x74, 0x20, 0x6C, 0x65, 0x64, 0x32]
    = .ok (.getLed2 none) := rfl
-- get led3
theorem test_decode_get_led3 : decode
    [0x67, 0x65, 0x74, 0x20, 0x6C, 0x65, 0x64, 0x33]
    = .ok (.getLed3 none) := rfl
-- get led4
theorem test_decode_get_led4 : decode
    [0x67, 0x65, 0x74, 0x20, 0x6C, 0x65, 0x64, 0x34]
    = .ok (.getLed4 none) := rfl
-- get m1current
theorem test_decode_get_m1current : decode
    [0x67, 0x65, 0x74, 0x20, 0x6D, 0x31, 0x63, 0x75, 0x72, 0x72, 0x65, 0x6E, 0x74]
    = .ok (.getM1current none) := rfl
-- get m2current
theorem test_decode_get_m2current : decode
    [0x67, 0x65, 0x74, 0x20, 0x6D, 0x32, 0x63, 0x75, 0x72, 0x72, 0x65, 0x6E, 0x74]
    = .ok (.getM2current none) := rfl
-- set m1speed 127
theorem test_decode_set_m1speed : decode
    [0x73, 0x65, 0x74, 0x20, 0x6D, 0x31, 0x73, 0x70, 0x65, 0x65, 0x64, 0x20, 0x31, 0x32, 0x37]
    = .ok (.setM1speed (BitVec.ofInt 8 (127))) := rfl
-- set m2speed -128
theorem test_decode_set_m2speed : decode
    [0x73, 0x65, 0x74, 0x20, 0x6D, 0x32, 0x73, 0x70, 0x65, 0x65, 0x64, 0x20, 0x2D, 0x31, 0x32, 0x38]
    = .ok (.setM2speed (BitVec.ofInt 8 (-128))) := rfl
-- set m1disable -0
theorem test_decode_set_m1disable : decode
    [0x73, 0x65, 0x74, 0x20, 0x6D, 0x31, 0x64, 0x69, 0x73, 0x61, 0x62, 0x6C, 0x65, 0x20, 0x2D, 0x30]
    = .ok (.setM1disable (BitVec.ofInt 8 (-0))) := rfl
-- set m2disable 1
theorem test_decode_set_m2disable : decode
    [0x73, 0x65, 0x74, 0x20, 0x6D, 0x32, 0x64, 0x69, 0x73, 0x61, 0x62, 0x6C, 0x65, 0x20, 0x31]
    = .ok (.setM2disable (BitVec.ofInt 8 (1))) := rfl
-- set led1 -7
theorem test_decode_set_led1 : decode
    [0x73, 0x65, 0x74, 0x20, 0x6C, 0x65, 0x64, 0x31, 0x20, 0x2D, 0x37]
    = .ok (.setLed1 (BitVec.ofInt 8 (-7))) := rfl
-- set led2 99
theorem test_decode_set_led2 : decode
    [0x73, 0x65, 0x74, 0x20, 0x6C, 0x65, 0x64, 0x32, 0x20, 0x39, 0x39]
    = .ok (.setLed2 (BitVec.ofInt 8 (99))) := rfl
-- set led3 0
theorem test_decode_set_led3 : decode
    [0x73, 0x65, 0x74, 0x20, 0x6C, 0x65, 0x64, 0x33, 0x20, 0x30]
    = .ok (.setLed3 (BitVec.ofInt 8 (0))) := rfl
-- set led4 10
theorem test_decode_set_led4 : decode
    [0x73, 0x65, 0x74, 0x20, 0x6C, 0x65, 0x64, 0x34, 0x20, 0x31, 0x30]
    = .ok (.setLed4 (BitVec.ofInt 8 (10))) := rfl
-- set m1current 5
theorem test_decode_set_m1current : decode
    [0x73, 0x65, 0x74, 0x20, 0x6D, 0x31, 0x63, 0x75, 0x72, 0x72, 0x65, 0x6E, 0x74, 0x20, 0x35]
    = .ok (.setM1current (BitVec.ofInt 8 (5))) := rfl
-- set m2current -100
theorem test_decode_set_m2current : decode
    [0x73, 0x65, 0x74, 0x20, 0x6D, 0x32, 0x63, 0x75, 0x72, 0x72, 0x65, 0x6E, 0x74, 0x20, 0x2D, 0x31, 0x30,
      0x30]
    = .ok (.setM2current (BitVec.ofInt 8 (-100))) := rfl

-- get m1speed x y (V74): the tail is carried and ignored
theorem test_decode_tail : decode
    [0x67, 0x65, 0x74, 0x20, 0x6D, 0x31, 0x73, 0x70, 0x65, 0x65, 0x64, 0x20, 0x78, 0x20, 0x79]
    = .ok (.getM1speed (some [0x78, 0x20, 0x79])) := rfl

/-! Lines that decode to no command (V75 to V109) -/

-- ''
theorem test_reject_empty_line : decode
    []
    = .error (.emptyLine) := rfl
-- 'get'
theorem test_reject_get_alone : decode
    [0x67, 0x65, 0x74]
    = .error (.command .missingParameter) := rfl
-- 'set '
theorem test_reject_set_sp : decode
    [0x73, 0x65, 0x74, 0x20]
    = .error (.command .missingParameter) := rfl
-- 'set m1speed'
theorem test_reject_set_no_value : decode
    [0x73, 0x65, 0x74, 0x20, 0x6D, 0x31, 0x73, 0x70, 0x65, 0x65, 0x64]
    = .error (.command .missingParameter) := rfl
-- 'set  m1speed 5'
theorem test_reject_empty_prop : decode
    [0x73, 0x65, 0x74, 0x20, 0x20, 0x6D, 0x31, 0x73, 0x70, 0x65, 0x65, 0x64, 0x20, 0x35]
    = .error (.command .missingParameter) := rfl
-- 'set m1speed '
theorem test_reject_empty_value : decode
    [0x73, 0x65, 0x74, 0x20, 0x6D, 0x31, 0x73, 0x70, 0x65, 0x65, 0x64, 0x20]
    = .error (.command .invalidInteger) := rfl
-- 'set m1speed -'
theorem test_reject_dash_alone : decode
    [0x73, 0x65, 0x74, 0x20, 0x6D, 0x31, 0x73, 0x70, 0x65, 0x65, 0x64, 0x20, 0x2D]
    = .error (.command .invalidInteger) := rfl
-- 'set m1speed 128'
theorem test_reject_value_128 : decode
    [0x73, 0x65, 0x74, 0x20, 0x6D, 0x31, 0x73, 0x70, 0x65, 0x65, 0x64, 0x20, 0x31, 0x32, 0x38]
    = .error (.command .invalidInteger) := rfl
-- 'set m1speed -129'
theorem test_reject_value_minus_129 : decode
    [0x73, 0x65, 0x74, 0x20, 0x6D, 0x31, 0x73, 0x70, 0x65, 0x65, 0x64, 0x20, 0x2D, 0x31, 0x32, 0x39]
    = .error (.command .invalidInteger) := rfl
-- 'set m1speed 99999999999999999999'
theorem test_reject_no_wrap : decode
    [0x73, 0x65, 0x74, 0x20, 0x6D, 0x31, 0x73, 0x70, 0x65, 0x65, 0x64, 0x20, 0x39, 0x39, 0x39, 0x39, 0x39,
      0x39, 0x39, 0x39, 0x39, 0x39, 0x39, 0x39, 0x39, 0x39, 0x39, 0x39, 0x39, 0x39, 0x39, 0x39]
    = .error (.command .invalidInteger) := rfl
-- 'set m1speed +5'
theorem test_reject_plus : decode
    [0x73, 0x65, 0x74, 0x20, 0x6D, 0x31, 0x73, 0x70, 0x65, 0x65, 0x64, 0x20, 0x2B, 0x35]
    = .error (.command .invalidInteger) := rfl
-- 'set m1speed 5 '
theorem test_reject_trailing_sp : decode
    [0x73, 0x65, 0x74, 0x20, 0x6D, 0x31, 0x73, 0x70, 0x65, 0x65, 0x64, 0x20, 0x35, 0x20]
    = .error (.command .invalidInteger) := rfl
-- 'set led1 abc'
theorem test_reject_led_abc : decode
    [0x73, 0x65, 0x74, 0x20, 0x6C, 0x65, 0x64, 0x31, 0x20, 0x61, 0x62, 0x63]
    = .error (.command .invalidInteger) := rfl
-- 'set bogus abc'
theorem test_reject_bogus_prop_first : decode
    [0x73, 0x65, 0x74, 0x20, 0x62, 0x6F, 0x67, 0x75, 0x73, 0x20, 0x61, 0x62, 0x63]
    = .error (.command (.unknownToken .prop)) := rfl
-- 'get M1speed'
theorem test_reject_prop_case : decode
    [0x67, 0x65, 0x74, 0x20, 0x4D, 0x31, 0x73, 0x70, 0x65, 0x65, 0x64]
    = .error (.command (.unknownToken .prop)) := rfl
-- 'get m1speedx'
theorem test_reject_prop_longer : decode
    [0x67, 0x65, 0x74, 0x20, 0x6D, 0x31, 0x73, 0x70, 0x65, 0x65, 0x64, 0x78]
    = .error (.command (.unknownToken .prop)) := rfl
-- 'get m1spee'
theorem test_reject_prop_shorter : decode
    [0x67, 0x65, 0x74, 0x20, 0x6D, 0x31, 0x73, 0x70, 0x65, 0x65]
    = .error (.command (.unknownToken .prop)) := rfl
-- ' get m1speed'
theorem test_reject_leading_sp : decode
    [0x20, 0x67, 0x65, 0x74, 0x20, 0x6D, 0x31, 0x73, 0x70, 0x65, 0x65, 0x64]
    = .error (.command (.unknownToken .cmd)) := rfl
-- 'Get m1speed'
theorem test_reject_cmd_case : decode
    [0x47, 0x65, 0x74, 0x20, 0x6D, 0x31, 0x73, 0x70, 0x65, 0x65, 0x64]
    = .error (.command (.unknownToken .cmd)) := rfl
-- 'getm1speed'
theorem test_reject_no_sp : decode
    [0x67, 0x65, 0x74, 0x6D, 0x31, 0x73, 0x70, 0x65, 0x65, 0x64]
    = .error (.command (.unknownToken .cmd)) := rfl

/-! ### The opcode table's words (spec/opcode_table.json) -/

theorem test_table_get_m1speed : decodeTableWord 88 0x6465657073316D20746567 = some (.getM1speed none) := by
  decide
theorem test_table_get_m2current : decodeTableWord 104 0x746E6572727563326D20746567 = some (.getM2current none) := by
  decide
-- the row's word ends before VALUE: completed by the numeral 0 (log entry 14)
theorem test_table_set_m1speed : decodeTableWord 96 0x206465657073316D20746573 = some (.setM1speed 0) := by decide
theorem test_table_set_led4 : decodeTableWord 72 0x203464656C20746573 = some (.setLed4 0) := by decide
-- an event has no word (R94)
theorem test_table_event : decodeTableWord 0 0 = none := by decide

/-! ### Encoding -/

theorem test_encode_set_negative : encode (.setM1speed (BitVec.ofInt 8 (-128))) = some
    [0x73, 0x65, 0x74, 0x20, 0x6D, 0x31, 0x73, 0x70, 0x65, 0x65, 0x64, 0x20, 0x2D, 0x31, 0x32, 0x38] := by decide
theorem test_encode_set_short : encode (.setM2current 7) = some
    [0x73, 0x65, 0x74, 0x20, 0x6D, 0x32, 0x63, 0x75, 0x72, 0x72, 0x65, 0x6E, 0x74, 0x20, 0x37] := by decide
theorem test_encode_get_tail : encode (.getLed3 (some [0x78])) = some
    [0x67, 0x65, 0x74, 0x20, 0x6C, 0x65, 0x64, 0x33, 0x20, 0x78] := by decide
theorem test_encode_event : encode .bootDone = none := by decide

/-! ### Single steps, from spec/95_test_vectors.md -/

/-- S2, the state after boot. -/
def s2 (st : Strategy) : State :=
  { State.atReset st Config.default [] [] with
    irqEn := true, armed := true, adcBusy := true, en := { m1 := true, m2 := true }, booted := true, bootq := [] }

/-- The next state of an outcome, if it is one. -/
def next? : Host.Outcome State Fault Refusal → Option State
  | .next t => some t
  | .fault _ => none
  | .refused _ => none

/-- What the step that ends a line answers, from a state with nothing queued. -/
def answer (L : List Byte) (s : State) : Option (List Byte) := (next? (step (placeLine L s))).map State.txq

/-- The Motor Driver's registers after the step that ends a line. -/
def driveAfter (L : List Byte) (s : State) : Option Drive := (next? (step (placeLine L s))).map State.drive

/-- `CoastingPWM` registers of M1 with M2 as at reset. -/
def coastM1 (r : CoastingRegs) : Drive := .coasting { m1 := r, m2 := { dutyE := 255, dirf := true, hiz := false } }

/-- `BrakingPWM` registers of M1 with M2 at 0. -/
def brakeM1 (f r : Byte) : Drive := .braking { m1 := { dutyF := f, dutyR := r }, m2 := { dutyF := 0, dutyR := 0 } }

-- V70
theorem test_get_m1speed : answer
    [0x67, 0x65, 0x74, 0x20, 0x6D, 0x31, 0x73, 0x70, 0x65, 0x65, 0x64]
    (s2 .coastingPWM) = some
    [0x30, 0x78, 0x46, 0x46, 0x0D, 0x0A] := by
  decide
-- X13
theorem test_get_m1speed_20 : answer
    [0x67, 0x65, 0x74, 0x20, 0x6D, 0x31, 0x73, 0x70, 0x65, 0x65, 0x64]
    { s2 .brakingPWM with drive := brakeM1 20 0 } = some
    [0x30, 0x78, 0x31, 0x34, 0x0D, 0x0A] := by
  decide
-- V17: the other motor is untouched
theorem test_get_m2speed : answer
    [0x67, 0x65, 0x74, 0x20, 0x6D, 0x32, 0x73, 0x70, 0x65, 0x65, 0x64]
    { s2 .brakingPWM with drive := brakeM1 10 0 } = some
    [0x30, 0x78, 0x30, 0x0D, 0x0A] := by
  decide
-- V33
theorem test_get_m1disable : answer
    [0x67, 0x65, 0x74, 0x20, 0x6D, 0x31, 0x64, 0x69, 0x73, 0x61, 0x62, 0x6C, 0x65]
    { s2 .coastingPWM with drive := coastM1 { dutyE := 255, dirf := true, hiz := true } } = some
    [0x30, 0x78, 0x31, 0x0D, 0x0A] := by
  decide
-- V112
theorem test_get_m1disable_braking : answer
    [0x67, 0x65, 0x74, 0x20, 0x6D, 0x31, 0x64, 0x69, 0x73, 0x61, 0x62, 0x6C, 0x65]
    (s2 .brakingPWM) = some
    [0x45, 0x72, 0x72, 0x6F, 0x72, 0x3A, 0x20, 0x4E, 0x6F, 0x74, 0x20, 0x69, 0x6D, 0x70, 0x6C, 0x65, 0x6D,
      0x65, 0x6E, 0x74, 0x65, 0x64, 0x0D, 0x0A] := by
  decide
-- V34
theorem test_get_m2disable : answer
    [0x67, 0x65, 0x74, 0x20, 0x6D, 0x32, 0x64, 0x69, 0x73, 0x61, 0x62, 0x6C, 0x65]
    (s2 .coastingPWM) = some
    [0x30, 0x78, 0x30, 0x0D, 0x0A] := by
  decide
-- V72, V113
theorem test_get_led1 : answer
    [0x67, 0x65, 0x74, 0x20, 0x6C, 0x65, 0x64, 0x31]
    (s2 .brakingPWM) = some
    [0x45, 0x72, 0x72, 0x6F, 0x72, 0x3A, 0x20, 0x4E, 0x6F, 0x74, 0x20, 0x69, 0x6D, 0x70, 0x6C, 0x65, 0x6D,
      0x65, 0x6E, 0x74, 0x65, 0x64, 0x0D, 0x0A] := by
  decide
-- V72, V113
theorem test_get_led2 : answer
    [0x67, 0x65, 0x74, 0x20, 0x6C, 0x65, 0x64, 0x32]
    (s2 .brakingPWM) = some
    [0x45, 0x72, 0x72, 0x6F, 0x72, 0x3A, 0x20, 0x4E, 0x6F, 0x74, 0x20, 0x69, 0x6D, 0x70, 0x6C, 0x65, 0x6D,
      0x65, 0x6E, 0x74, 0x65, 0x64, 0x0D, 0x0A] := by
  decide
-- V72, V113
theorem test_get_led3 : answer
    [0x67, 0x65, 0x74, 0x20, 0x6C, 0x65, 0x64, 0x33]
    (s2 .brakingPWM) = some
    [0x45, 0x72, 0x72, 0x6F, 0x72, 0x3A, 0x20, 0x4E, 0x6F, 0x74, 0x20, 0x69, 0x6D, 0x70, 0x6C, 0x65, 0x6D,
      0x65, 0x6E, 0x74, 0x65, 0x64, 0x0D, 0x0A] := by
  decide
-- V72, V113
theorem test_get_led4 : answer
    [0x67, 0x65, 0x74, 0x20, 0x6C, 0x65, 0x64, 0x34]
    (s2 .brakingPWM) = some
    [0x45, 0x72, 0x72, 0x6F, 0x72, 0x3A, 0x20, 0x4E, 0x6F, 0x74, 0x20, 0x69, 0x6D, 0x70, 0x6C, 0x65, 0x6D,
      0x65, 0x6E, 0x74, 0x65, 0x64, 0x0D, 0x0A] := by
  decide
-- V42
theorem test_get_m1current : answer
    [0x67, 0x65, 0x74, 0x20, 0x6D, 0x31, 0x63, 0x75, 0x72, 0x72, 0x65, 0x6E, 0x74]
    { s2 .brakingPWM with sample := { m1 := 0x1FF, m2 := 0 } } = some
    [0x30, 0x78, 0x31, 0x46, 0x46, 0x0D, 0x0A] := by
  decide
-- V43
theorem test_get_m2current : answer
    [0x67, 0x65, 0x74, 0x20, 0x6D, 0x32, 0x63, 0x75, 0x72, 0x72, 0x65, 0x6E, 0x74]
    { s2 .coastingPWM with sample := { m1 := 0x1FF, m2 := 0x123 } } = some
    [0x30, 0x78, 0x31, 0x32, 0x33, 0x0D, 0x0A] := by
  decide
-- V1
theorem test_set_m1speed_lowest : driveAfter
    [0x73, 0x65, 0x74, 0x20, 0x6D, 0x31, 0x73, 0x70, 0x65, 0x65, 0x64, 0x20, 0x2D, 0x31, 0x32, 0x38]
    (s2 .brakingPWM)
    = some (brakeM1 0 255) := by
  decide
-- V16
theorem test_set_m1speed_coasting : driveAfter
    [0x73, 0x65, 0x74, 0x20, 0x6D, 0x31, 0x73, 0x70, 0x65, 0x65, 0x64, 0x20, 0x2D, 0x31]
    (s2 .coastingPWM)
    = some (coastM1 { dutyE := 254, dirf := false, hiz := false }) := by
  decide
-- V14
theorem test_set_m2speed_inverted : driveAfter
    [0x73, 0x65, 0x74, 0x20, 0x6D, 0x32, 0x73, 0x70, 0x65, 0x65, 0x64, 0x20, 0x31, 0x30]
    { s2 .brakingPWM with cfg := { Config.default with sign := { m1 := .normal, m2 := .inverted } } }
    = some (.braking { m1 := { dutyF := 0, dutyR := 0 }, m2 := { dutyF := 0, dutyR := 20 } }) := by
  decide
-- V30
theorem test_set_m1disable : driveAfter
    [0x73, 0x65, 0x74, 0x20, 0x6D, 0x31, 0x64, 0x69, 0x73, 0x61, 0x62, 0x6C, 0x65, 0x20, 0x31]
    (s2 .coastingPWM)
    = some (coastM1 { dutyE := 255, dirf := true, hiz := true }) := by
  decide
-- V35
theorem test_set_m1disable_braking : answer
    [0x73, 0x65, 0x74, 0x20, 0x6D, 0x31, 0x64, 0x69, 0x73, 0x61, 0x62, 0x6C, 0x65, 0x20, 0x31]
    (s2 .brakingPWM) = some
    [0x45, 0x72, 0x72, 0x6F, 0x72, 0x3A, 0x20, 0x4E, 0x6F, 0x74, 0x20, 0x69, 0x6D, 0x70, 0x6C, 0x65, 0x6D,
      0x65, 0x6E, 0x74, 0x65, 0x64, 0x0D, 0x0A] := by
  decide
-- V31
theorem test_set_m2disable_negative : driveAfter
    [0x73, 0x65, 0x74, 0x20, 0x6D, 0x32, 0x64, 0x69, 0x73, 0x61, 0x62, 0x6C, 0x65, 0x20, 0x2D, 0x33]
    (s2 .coastingPWM)
    = some (.coasting { m1 := { dutyE := 255, dirf := true, hiz := false }, m2 := { dutyE := 255, dirf := true, hiz := true } }) := by
  decide
-- X14
theorem test_set_led1 : answer
    [0x73, 0x65, 0x74, 0x20, 0x6C, 0x65, 0x64, 0x31, 0x20, 0x31]
    (s2 .brakingPWM) = some
    [0x45, 0x72, 0x72, 0x6F, 0x72, 0x3A, 0x20, 0x4E, 0x6F, 0x74, 0x20, 0x69, 0x6D, 0x70, 0x6C, 0x65, 0x6D,
      0x65, 0x6E, 0x74, 0x65, 0x64, 0x0D, 0x0A] := by
  decide
-- V113
theorem test_set_led2 : answer
    [0x73, 0x65, 0x74, 0x20, 0x6C, 0x65, 0x64, 0x32, 0x20, 0x30]
    (s2 .coastingPWM) = some
    [0x45, 0x72, 0x72, 0x6F, 0x72, 0x3A, 0x20, 0x4E, 0x6F, 0x74, 0x20, 0x69, 0x6D, 0x70, 0x6C, 0x65, 0x6D,
      0x65, 0x6E, 0x74, 0x65, 0x64, 0x0D, 0x0A] := by
  decide
-- V113
theorem test_set_led3 : answer
    [0x73, 0x65, 0x74, 0x20, 0x6C, 0x65, 0x64, 0x33, 0x20, 0x31]
    (s2 .coastingPWM) = some
    [0x45, 0x72, 0x72, 0x6F, 0x72, 0x3A, 0x20, 0x4E, 0x6F, 0x74, 0x20, 0x69, 0x6D, 0x70, 0x6C, 0x65, 0x6D,
      0x65, 0x6E, 0x74, 0x65, 0x64, 0x0D, 0x0A] := by
  decide
-- V107
theorem test_set_led4 : answer
    [0x73, 0x65, 0x74, 0x20, 0x6C, 0x65, 0x64, 0x34, 0x20, 0x2D, 0x37]
    (s2 .brakingPWM) = some
    [0x45, 0x72, 0x72, 0x6F, 0x72, 0x3A, 0x20, 0x4E, 0x6F, 0x74, 0x20, 0x69, 0x6D, 0x70, 0x6C, 0x65, 0x6D,
      0x65, 0x6E, 0x74, 0x65, 0x64, 0x0D, 0x0A] := by
  decide
-- X15
theorem test_set_m1current : answer
    [0x73, 0x65, 0x74, 0x20, 0x6D, 0x31, 0x63, 0x75, 0x72, 0x72, 0x65, 0x6E, 0x74, 0x20, 0x35]
    (s2 .brakingPWM) = some
    [0x45, 0x72, 0x72, 0x6F, 0x72, 0x3A, 0x20, 0x55, 0x6E, 0x73, 0x75, 0x70, 0x70, 0x6F, 0x72, 0x74, 0x65,
      0x64, 0x20, 0x61, 0x63, 0x74, 0x69, 0x6F, 0x6E, 0x0D, 0x0A] := by
  decide
-- V110
theorem test_set_m2current : answer
    [0x73, 0x65, 0x74, 0x20, 0x6D, 0x32, 0x63, 0x75, 0x72, 0x72, 0x65, 0x6E, 0x74, 0x20, 0x35]
    (s2 .coastingPWM) = some
    [0x45, 0x72, 0x72, 0x6F, 0x72, 0x3A, 0x20, 0x55, 0x6E, 0x73, 0x75, 0x70, 0x70, 0x6F, 0x72, 0x74, 0x65,
      0x64, 0x20, 0x61, 0x63, 0x74, 0x69, 0x6F, 0x6E, 0x0D, 0x0A] := by
  decide
-- V84: a set that succeeds is silent
theorem test_set_m2speed_silent : answer
    [0x73, 0x65, 0x74, 0x20, 0x6D, 0x32, 0x73, 0x70, 0x65, 0x65, 0x64, 0x20, 0x30, 0x30, 0x37]
    (s2 .brakingPWM) = some
    [] := by
  decide

/-! Error lines (V130 to V133) -/

-- V130, X17
theorem test_invalid_command : answer
    [0x62, 0x6F, 0x67, 0x75, 0x73]
    (s2 .brakingPWM) = some
    [0x49, 0x6E, 0x76, 0x61, 0x6C, 0x69, 0x64, 0x20, 0x63, 0x6F, 0x6D, 0x6D, 0x61, 0x6E, 0x64, 0x0D, 0x0A] := by
  decide
-- V131, X10
theorem test_unknown_token : answer
    [0x73, 0x65, 0x74, 0x20, 0x62, 0x6F, 0x67, 0x75, 0x73, 0x20, 0x31]
    (s2 .brakingPWM) = some
    [0x45, 0x72, 0x72, 0x6F, 0x72, 0x3A, 0x20, 0x55, 0x6E, 0x6B, 0x6E, 0x6F, 0x77, 0x6E, 0x20, 0x74, 0x6F,
      0x6B, 0x65, 0x6E, 0x0D, 0x0A] := by
  decide
-- V132, X11
theorem test_missing_parameter : answer
    [0x73, 0x65, 0x74, 0x20, 0x6D, 0x31, 0x73, 0x70, 0x65, 0x65, 0x64]
    (s2 .brakingPWM) = some
    [0x45, 0x72, 0x72, 0x6F, 0x72, 0x3A, 0x20, 0x4D, 0x69, 0x73, 0x73, 0x69, 0x6E, 0x67, 0x20, 0x70, 0x61,
      0x72, 0x61, 0x6D, 0x65, 0x74, 0x65, 0x72, 0x0D, 0x0A] := by
  decide
-- V133, X12
theorem test_invalid_integer : answer
    [0x73, 0x65, 0x74, 0x20, 0x6D, 0x31, 0x73, 0x70, 0x65, 0x65, 0x64, 0x20, 0x61, 0x62, 0x63]
    (s2 .brakingPWM) = some
    [0x45, 0x72, 0x72, 0x6F, 0x72, 0x3A, 0x20, 0x49, 0x6E, 0x76, 0x61, 0x6C, 0x69, 0x64, 0x20, 0x69, 0x6E,
      0x74, 0x65, 0x67, 0x65, 0x72, 0x0D, 0x0A] := by
  decide
-- V52: an empty line is silent
theorem test_empty_line : answer
    []
    (s2 .brakingPWM) = some
    [] := by
  decide

/-! Received bytes -/

/-- The step of FG on a byte at the head of `IN`: the fill and the first byte of the line buffer. -/
def received (b : Byte) (s : State) : Option (Nat × Byte) :=
  (next? (exec (.evRxByte b) { s with inq := [b] })).map fun t => (t.lblen, Memory.read t.lb 0)

-- R161: accepted; R163: dropped
theorem test_rx_accepted : received 0x67 (s2 .brakingPWM) = some (1, 0x67) := by decide
theorem test_rx_delete_dropped : received 0x7F (s2 .brakingPWM) = some (0, 0) := by decide

/-! The sampler (V40, V44 to V46) -/

theorem test_adc_done : exec (.evAdcDone 0x1FF) (s2 .brakingPWM)
    = .next { s2 .brakingPWM with adcResult := 0x1FF, irqPending := true, adcBusy := false } := rfl
theorem test_adc_draw_refused : exec (.evAdcDone 1024) (s2 .brakingPWM) = .refused (.adcDraw 1024) := rfl
theorem test_isr : next? (exec .isrConvComplete
      { s2 .brakingPWM with
        adcResult := 0x123, irqPending := true, adcBusy := false, nextCh := .m2, adcSel := .m2,
        sample := { m1 := 0x1FF, m2 := 0 } })
    = some { s2 .brakingPWM with adcResult := 0x123, sample := { m1 := 0x1FF, m2 := 0x123 } } := by decide
theorem test_isr_not_pending : exec .isrConvComplete (s2 .brakingPWM) = .fault (.noStep .isr) := rfl

/-! Boot (S3 to S8) -/

/-- S1, the state after reset, with nothing scheduled. -/
def s1 (st : Strategy) : State := State.atReset st Config.default [] []

theorem test_boot_connect : exec .bootConnect (s1 .coastingPWM) = .next { s1 .coastingPWM with irqEn := true } := rfl
theorem test_boot_connect_after_boot : exec .bootConnect (s2 .coastingPWM) = .refused .bootConnect := rfl
theorem test_boot_arm : exec .bootArm { s1 .coastingPWM with irqEn := true, adcSel := .m2 }
    = .next { s1 .coastingPWM with irqEn := true, adcSel := .m1, adcBusy := true, armed := true } := rfl
theorem test_boot_arm_unconnected : exec .bootArm (s1 .coastingPWM) = .refused .bootArm := rfl
theorem test_boot_enable : exec (.bootEnable .m2 true) (s1 .brakingPWM)
    = .next { s1 .brakingPWM with en := { m1 := false, m2 := true } } := rfl
theorem test_boot_enable_after_boot : exec (.bootEnable .m1 false) (s2 .brakingPWM) = .refused .bootEnable := rfl
theorem test_boot_done_unarmed : exec .bootDone (s1 .brakingPWM) = .refused .bootDone := rfl
theorem test_boot_done : exec .bootDone { s1 .brakingPWM with irqEn := true, armed := true, adcBusy := true }
    = .next { s1 .brakingPWM with irqEn := true, armed := true, adcBusy := true, booted := true } := rfl

-- a refused step is a mark and the run goes on (R10, R269)
theorem test_refused_step_is_marked :
    step { s2 .brakingPWM with sched := [.adc 1024, .fg] }
      = .next { s2 .brakingPWM with sched := [.fg], marks := [.adcDraw 1024] } := rfl
-- after a power-on the boot sequence is before HOST (R282, R284)
theorem test_power_on_leads_to_boot :
    (next? (step { s2 .brakingPWM with sched := [.powerOn] })).map State.bootq
      = some [.connect, .arm, .enable .m1 true, .enable .m2 true, .done] := rfl

/-! Modes (V20 to V29) -/

theorem test_mode_sleep : mode .m1 { s1 .brakingPWM with drive := brakeM1 20 0 } = .sleep := by decide
theorem test_mode_drive_reverse : mode .m1 { s2 .brakingPWM with drive := brakeM1 0 19 } = .drive .physRev 19 .brake := by
  decide
theorem test_mode_brake : mode .m1 (s2 .brakingPWM) = .brake := by decide
theorem test_mode_hiz : mode .m1 { s2 .coastingPWM with drive := coastM1 { dutyE := 235, dirf := true, hiz := true } }
    = .hiz := by decide
theorem test_mode_coast : mode .m1 (s2 .coastingPWM) = .coast := by decide
theorem test_mode_drive_coasting :
    mode .m1 { s2 .coastingPWM with drive := coastM1 { dutyE := 235, dirf := true, hiz := false } }
      = .drive .physFwd 20 .coast := by decide

/-! The codes (V1 to V12) and the digits (V120 to V127) -/

theorem test_codes : [-128, -2, -1, 0, 1, 64, 127].map (fun v => driveCode (BitVec.ofInt 8 v))
    = [255, 3, 1, 0, 2, 128, 254] := by decide
theorem test_hex_minimal : hex .minimal 16 0x1FF = [0x31, 0x46, 0x46] ∧ hex .minimal 8 0 = [0x30] := by decide
theorem test_hex_fixed : hex .fixed 16 7 = [0x30, 0x30, 0x30, 0x37] ∧ hex .fixed 8 1 = [0x30, 0x31] := by decide

/-! The line buffer -/

theorem test_memory_reset : Memory.wf State.reset.lb := by decide
theorem test_memory_clears : Memory.write (Memory.write [] 3 0x41) 3 0 = [] := by decide
theorem test_memory_order : Memory.write (Memory.write [] 3 0x41) 1 0x42 = [(1, 0x42), (3, 0x41)] := by decide


/-! ### Witnesses: for every statement with hypotheses, a state and operands that meet them -/

/-- `s` with `t` as its only turn. -/
def turn (t : Turn) (s : State) : State := { s with sched := [t] }

/-- The state after boot meets the invariant: the premise of every statement about states of a run. -/
theorem witness_run_inv (st : Strategy) : RunInv (s2 st) where
  cfg_wf := by cases st <;> decide
  lb_wf := by cases st <;> decide
  lb_in := by cases st <;> decide
  lblen_le := by cases st <;> decide
  line_printable := fun i h => absurd h (by cases st <;> exact Nat.not_lt_zero i)
  one_direction := by
    cases st
    · intro m; cases m <;> decide
    · trivial
  samples_in_range := by intro m; cases st <;> cases m <;> decide
  result_in_range := by cases st <;> decide
  armed_runs := by cases st <;> decide
  one_conversion := by cases st <;> decide
  channel := fun _ => by cases st <;> decide
  armed_connected := fun _ => by cases st <;> decide
  booted_armed := fun _ => by cases st <;> decide
  txq_text := by cases st <;> decide

/-! Encoding -/

theorem witness_DecodeOfEncodeIsTheInstruction :
    (Instr.getLed1 (some [0x20, 0x7E])).wf Config.default = true ∧
    (Instr.getM1disable (some [])).wf Config.default = true ∧
    (Instr.setM2current (BitVec.ofInt 8 (-128))).wf Config.default = true ∧
    (Instr.setM1speed 127).wf Config.default = true ∧ (Instr.bootEnable .m1 true).wf Config.default = true := by decide

theorem witness_numeral_boundaries :
    IsNumeral [0x2D, 0x31, 0x32, 0x38] (BitVec.ofInt 8 (-128)) ∧ IsNumeral [0x31, 0x32, 0x37] 127 :=
  ⟨⟨true, [0x31, 0x32, 0x38], by decide⟩, ⟨false, [0x31, 0x32, 0x37], by decide⟩⟩

/-- Both forms of a command line, and each of the error forms. -/
theorem witness_LinesDecodeExactlyByTheGrammar :
    (∃ L, ∃ p t, L ≠ [] ∧ L = cmdGet ++ Ascii.sp :: (PropertyId.name p ++ tailBytes t)) ∧
    (∃ L, ∃ p v V, L ≠ [] ∧ IsNumeral V v ∧ L = cmdSet ++ Ascii.sp :: (PropertyId.name p ++ Ascii.sp :: V)) :=
  ⟨⟨_, .led1, some [], by decide, rfl⟩,
    ⟨_, .m1Speed, 127, _, by decide, witness_numeral_boundaries.2, rfl⟩⟩

theorem witness_UnknownCommandIsAnsweredInvalid :
    (Ascii.sp ∉ ([] : List Byte) ∧ ([] : List Byte) ≠ cmdGet ∧ ([] : List Byte) ≠ cmdSet) ∧
    (Ascii.sp ∉ cmdGet ++ [0x78] ∧ cmdGet ++ [0x78] ≠ cmdGet ∧ cmdGet ++ [0x78] ≠ cmdSet) := by decide

theorem witness_UnknownPropertyIsAnsweredUnknownToken :
    (cmdSet = cmdGet ∨ cmdSet = cmdSet) ∧ ([0x6C, 0x65, 0x64, 0x35] : List Byte) ≠ [] ∧
    Ascii.sp ∉ ([0x6C, 0x65, 0x64, 0x35] : List Byte) ∧
    ∀ p : PropertyId, ([0x6C, 0x65, 0x64, 0x35] : List Byte) ≠ p.name :=
  ⟨.inr rfl, by decide, by decide, fun p => by cases p <;> decide⟩

/-- `set led1`, the last of the five forms; the others are constants. -/
theorem witness_AbsentPartIsAnsweredMissingParameter :
    (∃ L r, L = cmdGet ++ Ascii.sp :: tailBytes r) ∧ (∃ L, ∃ p : PropertyId, L = cmdSet ++ Ascii.sp :: p.name) :=
  ⟨⟨_, none, rfl⟩, ⟨_, .led1, rfl⟩⟩

/-- The empty VALUE and the first value above the range are no numerals. -/
theorem witness_BadValueIsAnsweredInvalidInteger :
    (¬ ∃ v, IsNumeral [] v) ∧ ¬ ∃ v, IsNumeral [0x31, 0x32, 0x38] v := by
  refine ⟨?_, ?_⟩
  · rintro ⟨v, neg, ds, h, -, e, -⟩
    cases neg
    · exact h e.symm
    · cases e
  · rintro ⟨v, neg, ds, -, -, e, hv⟩
    cases neg
    · simp only [Bool.false_eq_true, if_false] at e hv
      rw [← e] at hv
      have h128 : (decimalValue [0x31, 0x32, 0x38] : Int) = 128 := rfl
      have := BitVec.toInt_lt (x := v)
      omega
    · cases e

/-! Steps -/

/-- `s` with `op` as HOST's next boot operation and HOST's boot turn next. -/
def booting (op : BootOp) (s : State) : State := { turn .boot s with bootq := [op] }

/-- One witness for each outcome of the fetched instruction; the third is a state no run reaches. -/
theorem witness_StepRunsTheFetchedInstruction :
    (∃ s u v, s.sched = [.boot] ∧ fetch .boot s = some .bootDone ∧ u = { s with sched := [], bootq := s.bootq.tail } ∧
      exec .bootDone u = .next v) ∧
    (∃ s u r, s.sched = [.boot] ∧ fetch .boot s = some .bootArm ∧ u = { s with sched := [], bootq := s.bootq.tail } ∧
      exec .bootArm u = .refused r) ∧
    (∃ s u k, s.sched = [.fg] ∧ fetch .fg s = some (.evRxByte 0x0D) ∧ u = { s with sched := [] } ∧
      exec (.evRxByte 0x0D) u = .fault (.lineBufferOffset k)) ∧
    (∃ s u a, s.sched = [.isr] ∧ fetch .isr s = some .isrConvComplete ∧ u = { s with sched := [] } ∧
      exec .isrConvComplete u = .fault (.noStep a)) :=
  ⟨⟨booting .done { s1 .brakingPWM with armed := true }, _, _, rfl, rfl, rfl, rfl⟩,
    ⟨booting .arm (s1 .brakingPWM), _, _, rfl, rfl, rfl, rfl⟩,
    ⟨turn .fg { s2 .brakingPWM with inq := [0x0D], lblen := 1, cfg := capped 0 }, _, _, rfl, rfl, rfl, rfl⟩,
    ⟨turn .isr (s1 .brakingPWM), _, _, rfl, rfl, rfl, rfl⟩⟩

/-- One state for each operation HOST's boot turn fetches. -/
theorem witness_boot_operations (op : BootOp) :
    (booting op (s1 .brakingPWM)).bootq = [op] ∧ ∃ i, fetch .boot (booting op (s1 .brakingPWM)) = some i :=
  ⟨rfl, _, rfl⟩

/-- A state with the line of a command in the buffer, a terminator at the head of `IN` and FG's turn next. -/
def pending (L : List Byte) (b : Byte) (s : State) : State := { placeLine L s with inq := [b] }

theorem witness_StepRunsTheDecodedCommand :
    (pending (cmdGet ++ Ascii.sp :: PropertyId.name .led1) 0x0A (s2 .brakingPWM)).sched = [.fg] ∧
    (pending (cmdGet ++ Ascii.sp :: PropertyId.name .led1) 0x0A (s2 .brakingPWM)).booted = true ∧
    currentLine (pending (cmdGet ++ Ascii.sp :: PropertyId.name .led1) 0x0A (s2 .brakingPWM))
      = .ok (cmdGet ++ Ascii.sp :: PropertyId.name .led1) ∧
    decode (cmdGet ++ Ascii.sp :: PropertyId.name .led1) = .ok (.getLed1 none) := ⟨rfl, rfl, rfl, rfl⟩

theorem witness_WorldTurnsDoOnlyTheirAct :
    (turn (.send 0x67) (s2 .brakingPWM)).sched = [.send 0x67] ∧ (turn .take (s2 .brakingPWM)).sched = [.take] ∧
    (turn .powerOn (s2 .brakingPWM)).sched = [.powerOn] ∧
    ((turn .fg (s2 .brakingPWM)).sched = [.fg] ∧ (turn .fg (s2 .brakingPWM)).inq = []) ∧
    ((turn .boot (s2 .brakingPWM)).sched = [.boot] ∧ (turn .boot (s2 .brakingPWM)).bootq = []) ∧
    (s2 .brakingPWM).sched = [] := by decide

/-! Boot and the sampler -/

/-- A power-on in the middle of boot, and one after boot followed by a boot turn for each operation. -/
theorem witness_BootSequenceReachesTheBootedState :
    (∃ t, step (turn .powerOn (s1 .coastingPWM)) = .next t) ∧
    ∃ (s : State) (n : Nat), s.booted = true ∧ n = (if s.cfg.bootEnMotors then 5 else 3) ∧
      s.sched = .powerOn :: (List.replicate n .boot ++ [.fg]) :=
  ⟨⟨_, rfl⟩, { s2 .brakingPWM with sched := [.powerOn, .boot, .boot, .boot, .boot, .boot, .fg] }, 5, rfl, rfl, rfl⟩

theorem witness_BootConnectConnectsOnce :
    ((s1 .brakingPWM).booted = false ∧ (s1 .brakingPWM).irqEn = false) ∧
    ¬ ((s2 .brakingPWM).booted = false ∧ (s2 .brakingPWM).irqEn = false) := by decide

theorem witness_BootArmStartsTheFirstConversion :
    (∃ s : State, s.booted = false ∧ s.armed = false ∧ s.irqEn = true) ∧
    ¬ ((s1 .brakingPWM).booted = false ∧ (s1 .brakingPWM).armed = false ∧ (s1 .brakingPWM).irqEn = true) :=
  ⟨⟨{ s1 .brakingPWM with irqEn := true }, by decide⟩, by decide⟩

theorem witness_BootEnableWritesOneEnable : (s1 .coastingPWM).booted = false ∧ (s2 .coastingPWM).booted = true := by
  decide

theorem witness_BootDoneAdmitsLines :
    (∃ s : State, s.booted = false ∧ s.armed = true ∧ s.inq = [0x67]) ∧
    ¬ ((s1 .brakingPWM).booted = false ∧ (s1 .brakingPWM).armed = true) :=
  ⟨⟨{ s2 .brakingPWM with booted := false, inq := [0x67] }, by decide⟩, by decide⟩

/-- The last draw in range, the first out of range, and a state in which the ADC is idle. -/
theorem witness_AdcCompletionRaisesTheNotification :
    ((s2 .brakingPWM).adcBusy = true ∧ (s2 .brakingPWM).irqPending = false ∧
      (1023 : U16).toNat ≤ 2 ^ (s2 .brakingPWM).cfg.adcBits - 1) ∧
    2 ^ (s2 .brakingPWM).cfg.adcBits - 1 < (1024 : U16).toNat ∧
    ¬ ((s1 .brakingPWM).adcBusy = true ∧ (s1 .brakingPWM).irqPending = false) := by decide

theorem witness_HandlerStoresFlipsAndRetriggers :
    (∃ s : State, s.irqPending = true ∧ s.irqEn = true) ∧
    ¬ ((s2 .brakingPWM).irqPending = true ∧ (s2 .brakingPWM).irqEn = true) :=
  ⟨⟨{ s2 .brakingPWM with irqPending := true, adcBusy := false }, by decide⟩, by decide⟩

theorem witness_ChannelsAlternateForever :
    RunInv (s2 .coastingPWM) ∧ (s2 .coastingPWM).adcBusy = true ∧
    ∀ a ∈ [(0x3FF : U16), 0, 0x123], a.toNat < 2 ^ (s2 .coastingPWM).cfg.adcBits :=
  ⟨witness_run_inv _, by decide, by
    intro a ha
    have h : (s2 .coastingPWM).cfg.adcBits = 10 := rfl
    rcases List.mem_cons.mp ha with rfl | ha
    · rw [h]; decide
    · rcases List.mem_cons.mp ha with rfl | ha
      · rw [h]; decide
      · rw [List.mem_singleton.mp ha, h]; decide⟩

/-- A handler step, a power-on and an idle turn each answer a next state. -/
theorem witness_OnlyTheHandlerWritesOneSample :
    (∃ t, step (turn .isr { s2 .brakingPWM with irqPending := true, adcBusy := false }) = .next t) ∧
    (∃ t, step (turn .powerOn (s2 .brakingPWM)) = .next t) ∧ ∃ t, step (turn .isr (s2 .brakingPWM)) = .next t :=
  ⟨⟨_, rfl⟩, ⟨_, rfl⟩, ⟨_, rfl⟩⟩

/-! Line input -/

/-- The bounds of the printable range with room for one byte and with none, and the bytes beside the range. -/
theorem witness_ReceivedByteIsAcceptedOrDropped :
    (s2 .brakingPWM).booted = true ∧ ({ s2 .brakingPWM with inq := [0x20, 0x7E] } : State).inq = [0x20, 0x7E] ∧
    (0x20 ≤ (0x20 : Byte).toNat ∧ (0x7E : Byte).toNat ≤ 0x7E ∧ 126 < Config.default.lineCap ∧
      Config.default.lineCap ≤ 127) ∧
    ((0x1F : Byte).toNat < 0x20 ∧ (0x1F : Byte).toNat ≠ 0x0D ∧ (0x1F : Byte).toNat ≠ 0x0A) ∧ 0x7E < (0x7F : Byte).toNat := by
  decide

theorem witness_AcceptedByteChangesOneBufferByte :
    Memory.wf (s2 .brakingPWM).lb ∧ isPrintable 0x7E = true ∧ (s2 .brakingPWM).lblen < (s2 .brakingPWM).cfg.lineCap ∧
    ∃ t, exec (.evRxByte 0x7E) { s2 .brakingPWM with inq := [0x7E] } = .next t :=
  ⟨by decide, by decide, by decide, _, rfl⟩

/-- An empty line, a line that does not parse and one that does, each before its terminator. -/
theorem witness_TerminatorProcessesTheLine :
    ({ s2 .brakingPWM with inq := [0x0D] } : State).lblen = 0 ∧
    (currentLine (pending [0x78] 0x0A (s2 .brakingPWM)) = .ok [0x78] ∧
      parseLine [0x78] = .error (.unknownToken .cmd)) ∧
    (currentLine (pending (cmdGet ++ Ascii.sp :: PropertyId.name .led1) 0x0D (s2 .brakingPWM))
        = .ok (cmdGet ++ Ascii.sp :: PropertyId.name .led1) ∧
      parseLine (cmdGet ++ Ascii.sp :: PropertyId.name .led1) = .ok (.get .led1)) := ⟨rfl, ⟨rfl, rfl⟩, rfl, rfl⟩

theorem witness_NoLineBeforeBoot :
    ((turn .fg { s1 .brakingPWM with inq := [0x67] }).booted = false ∧
      (turn .fg { s1 .brakingPWM with inq := [0x67] }).sched = [.fg]) ∧
    (turn .fg (s2 .brakingPWM)).inq = [] := ⟨⟨rfl, rfl⟩, rfl⟩

/-- Three bytes, the second of which is dropped. -/
theorem witness_LineIsTheFirstAcceptedBytes :
    Memory.wf (s2 .brakingPWM).lb ∧ (s2 .brakingPWM).booted = true ∧ (s2 .brakingPWM).lblen = 0 ∧
    ({ s2 .brakingPWM with inq := [0x67, 0x08, 0x65, 0x0D], sched := fgTurns 3 } : State).inq
      = [0x67, 0x08, 0x65] ++ [0x0D] ∧
    ({ s2 .brakingPWM with inq := [0x67, 0x08, 0x65, 0x0D], sched := fgTurns 3 } : State).sched
      = fgTurns [(0x67 : Byte), 0x08, 0x65].length ++ [] ∧
    ∀ b ∈ [(0x67 : Byte), 0x08, 0x65], b ≠ Ascii.cr ∧ b ≠ Ascii.lf := by decide

theorem witness_ReceivedLineRunsItsCommand :
    ∃ (s : State) (L : List Byte), Memory.wf s.lb ∧ s.booted = true ∧ s.lblen = 0 ∧
      (Instr.setLed1 (BitVec.ofInt 8 (-100))).wf s.cfg = true ∧ encode (.setLed1 (BitVec.ofInt 8 (-100))) = some L ∧
      s.inq = L ++ Ascii.cr :: [0x0A] ∧ s.sched = fgTurns (L.length + 1) ++ [.fg] :=
  ⟨{ s2 .coastingPWM with
      inq := cmdSet ++ Ascii.sp :: (PropertyId.name .led1 ++ [0x20, 0x2D, 0x31, 0x30, 0x30, 0x0D, 0x0A])
      sched := fgTurns 15 },
    cmdSet ++ Ascii.sp :: (PropertyId.name .led1 ++ [0x20, 0x2D, 0x31, 0x30, 0x30]), by decide⟩

/-! The commands and the Motor Driver: a state of each strategy, which every form's statement splits on -/

theorem witness_strategies : (∃ r, (s2 .brakingPWM).drive = .braking r) ∧ ∃ r, (s2 .coastingPWM).drive = .coasting r :=
  ⟨⟨_, rfl⟩, ⟨_, rfl⟩⟩

/-- Every command form answers a next state, under both strategies. -/
theorem witness_commands (i : Instr) (h : i.isCommand = true) (st : Strategy) : ∃ t, exec i (s2 st) = .next t := by
  obtain ⟨c, hc⟩ := commandOf_of_isCommand h
  exact ⟨_, exec_of_command hc _⟩

theorem witness_LedFormsAnswerNotImplemented : Instr.setLed4 0 ∈
    [Instr.getLed1 none, .getLed2 none, .getLed3 none, .getLed4 none, .setLed1 0, .setLed2 0, .setLed3 0, .setLed4 0] := by
  decide

/-- Two states of each strategy that agree on one motor and not on the other. -/
theorem witness_SpeedReadbackIgnoresEverythingElse :
    (∃ (s u s' u' : State) (r q : PerMotor BrakingRegs), s.cfg.hexPad = u.cfg.hexPad ∧ s.drive = .braking r ∧
      u.drive = .braking q ∧ r.get .m1 = q.get .m1 ∧ r.m2 ≠ q.m2 ∧
      exec (.getM1speed none) s = .next s' ∧ exec (.getM1speed none) u = .next u') ∧
    (∃ (s u s' u' : State) (r q : PerMotor CoastingRegs), s.cfg.hexPad = u.cfg.hexPad ∧ s.drive = .coasting r ∧
      u.drive = .coasting q ∧ r.get .m2 = q.get .m2 ∧ r.m1 ≠ q.m1 ∧
      exec (.getM2speed none) s = .next s' ∧ exec (.getM2speed none) u = .next u') :=
  ⟨⟨s2 .brakingPWM,
    { s2 .brakingPWM with drive := .braking { m1 := { dutyF := 0, dutyR := 0 }, m2 := { dutyF := 2, dutyR := 0 } } },
    _, _, _, _, rfl, rfl, rfl, rfl, by decide, rfl, rfl⟩,
   ⟨s2 .coastingPWM, { s2 .coastingPWM with drive := coastM1 { dutyE := 0, dirf := true, hiz := false } },
    _, _, _, _, rfl, rfl, rfl, rfl, by decide, rfl, rfl⟩⟩

theorem witness_SetSpeedWritesTheDuty :
    Motor.m2 = .m2 ∧ Instr.setM2speed (BitVec.ofInt 8 (-128)) = .setM2speed (BitVec.ofInt 8 (-128)) ∧
    (s2 .brakingPWM).cfg.sign.get .m2 = .normal ∧
    (PerMotor.mk SignConv.normal SignConv.inverted).get .m2 = .inverted ∧
    0 < (1 : I8).toInt ∧ (BitVec.ofInt 8 (-1)).toInt < 0 ∧ (0 : I8).toInt = 0 := by decide

theorem witness_SpeedIsRecoveredFromTheReadback :
    ∃ t d, exec (.setM1speed (BitVec.ofInt 8 (-128))) (s2 .coastingPWM) = .next t ∧
      d = (match t.drive with
        | .braking _ => getSpeed .m1 t
        | .coasting _ => decDuty (s2 .coastingPWM).cfg.coastInvert (getSpeed .m1 t)) := ⟨_, _, rfl, rfl⟩

theorem witness_DutiesStayMutuallyExclusive :
    OneDirection (s2 .brakingPWM).drive ∧ ∃ t, step (turn .isr (s2 .brakingPWM)) = .next t :=
  ⟨(witness_run_inv .brakingPWM).one_direction, _, rfl⟩

theorem witness_MotorDriverRaisesNothingItself :
    (s2 .brakingPWM).strategy = .brakingPWM ∧
    Instr.setM2disable 0 ∈ [Instr.getM1disable none, .getM2disable none, .setM1disable 0, .setM2disable 0] := by decide

/-- One state for each clause of the mode selector. -/
theorem witness_ModeIsSelectedByTheRegisters :
    (s1 .brakingPWM).en.get .m1 = false ∧ (s2 .brakingPWM).en.get .m1 = true ∧
    ({ s2 .brakingPWM with drive := brakeM1 0 1 } : State).drive = brakeM1 0 1 ∧ (1 : Byte) ≠ 0 ∧
    (∃ d : Byte, (d.toNat : Int) = (if (s2 .coastingPWM).cfg.coastInvert then 255 - ((254 : Byte).toNat : Int)
      else ((254 : Byte).toNat : Int)) ∧ d ≠ 0) := ⟨rfl, rfl, rfl, by decide, 1, by decide, by decide⟩

theorem witness_SetSpeedSelectsTheDrive :
    (s2 .coastingPWM).en.get .m1 = true ∧ (BitVec.ofInt 8 (-1)).toInt ≠ 0 ∧
    (∃ t, exec (.setM1speed (BitVec.ofInt 8 (-1))) (s2 .coastingPWM) = .next t) ∧
    (∃ r, (s2 .coastingPWM).drive = .coasting r ∧ (r.get .m1).hiz = false) :=
  ⟨by decide, by decide, ⟨_, rfl⟩, _, rfl, rfl⟩

theorem witness_ReleasedPinReturnsTheDrive :
    ∃ t u r, (s2 .coastingPWM).drive = .coasting r ∧ (r.get .m2).hiz = false ∧ (s2 .coastingPWM).en.get .m2 = true ∧
      BitVec.ofInt 8 (-1) ≠ (0 : I8) ∧ exec (.setM2disable (BitVec.ofInt 8 (-1))) (s2 .coastingPWM) = .next t ∧
      exec (.setM2disable 0) t = .next u := ⟨_, _, _, rfl, rfl, rfl, by decide, rfl, rfl⟩

/-- The stored values 0 and 254, the ends of the range of drives, and a non-decreasing fraction. -/
theorem witness_SmallerStoredValueDrivesLonger :
    (∀ d e : Byte, 1 ≤ d.toNat → d.toNat ≤ e.toNat → (d.toNat : Rat) ≤ (e.toNat : Rat)) ∧
    ∃ (s t : State) (r q : PerMotor CoastingRegs), s.drive = .coasting r ∧ t.drive = .coasting q ∧
      s.cfg.coastInvert = true ∧ t.cfg.coastInvert = true ∧ s.en.get .m1 = true ∧ t.en.get .m1 = true ∧
      (r.get .m1).hiz = false ∧ (q.get .m1).hiz = false ∧ (r.get .m1).dutyE.toNat ≤ (q.get .m1).dutyE.toNat ∧
      (q.get .m1).dutyE.toNat < 255 := by
  refine ⟨fun d e _ h => by exact_mod_cast h, ?_⟩
  exact ⟨{ s2 .coastingPWM with drive := coastM1 { dutyE := 0, dirf := true, hiz := false } },
    { s2 .coastingPWM with drive := coastM1 { dutyE := 254, dirf := true, hiz := false } },
    _, _, rfl, rfl, rfl, rfl, rfl, rfl, rfl, rfl, by decide, by decide⟩

theorem witness_SilentSetIsIdempotent :
    Instr.setM1disable 1 ∈ [Instr.setM1speed 1, .setM2speed 1, .setM1disable 1, .setM2disable 1] ∧
    ∃ t, exec (.setM1disable 1) (s2 .coastingPWM) = .next t ∧ t.txq = (s2 .coastingPWM).txq :=
  ⟨by decide, _, rfl, rfl⟩

/-! Responses and frames -/

theorem witness_HexDigitsSpellTheValue :
    ((16 : Nat) = 8 ∨ (16 : Nat) = 16) ∧ 65535 < 2 ^ 16 ∧ 0 < 2 ^ 8 ∧ Config.default.hexPad = .minimal ∧
    { Config.default with hexPad := .fixed }.hexPad = .fixed ∧ (hex .minimal 8 0).head? = some 0x30 := by decide

theorem witness_ResponsesEndWithTheOnlyCrLf :
    (s2 .brakingPWM).cfg.wf = true ∧
    (∃ t, (Instr.getLed1 none).isCommand = true ∧ exec (.getLed1 none) (s2 .brakingPWM) = .next t) ∧
    ∃ t, interpret [0x20] (s2 .brakingPWM) = .next t := ⟨by decide, ⟨_, by decide, rfl⟩, _, rfl⟩

theorem witness_AnsweringLineWritesNothingElse :
    ∃ t, interpret (cmdGet ++ Ascii.sp :: PropertyId.name .led1) (s2 .brakingPWM) = .next t ∧
      t.txq ≠ (s2 .brakingPWM).txq := ⟨_, rfl, by decide⟩

/-- An error line, a `get`, a silent and an answering `set`, a boot operation, and a byte that ends no line. -/
theorem witness_OneResponsePerLine :
    (s2 .brakingPWM).cfg.wf = true ∧
    (∃ t, parseLine [0x78] = .error (.unknownToken .cmd) ∧ interpret [0x78] (s2 .brakingPWM) = .next t) ∧
    (∃ t, (Instr.getM2current none).format = .get .m2Current none ∧
      exec (.getM2current none) (s2 .brakingPWM) = .next t) ∧
    (∃ t u, exec (.setM1speed 1) (s2 .brakingPWM) = .next t ∧ t.txq = (s2 .brakingPWM).txq ∧
      exec (.setM1disable 1) (s2 .brakingPWM) = .next u ∧ u.txq ≠ (s2 .brakingPWM).txq) ∧
    (∃ t, Instr.bootConnect.isCommand = false ∧ exec .bootConnect (s1 .brakingPWM) = .next t) ∧
    ∃ t u, exec (.evRxByte 0x67) { s2 .brakingPWM with inq := [0x67] } = .next t ∧
      exec (.evRxByte 0x0D) { s2 .brakingPWM with inq := [0x0D] } = .next u :=
  ⟨by decide, ⟨_, rfl, rfl⟩, ⟨_, rfl, rfl⟩, ⟨_, _, rfl, rfl, rfl, by decide⟩, ⟨_, by decide, rfl⟩, _, _, rfl, rfl⟩

/-- A command that touches neither register of M2. -/
theorem witness_CommandsLeaveTheRestUnchanged :
    (Instr.setM1speed 1).isCommand = true ∧ (∃ t, exec (.setM1speed 1) (s2 .brakingPWM) = .next t) ∧
    ∀ v, ¬ (Motor.m2 = .m1 ∧ (Instr.setM1speed 1 = .setM1speed v ∨ Instr.setM1speed 1 = .setM1disable v)) ∧
      ¬ (Motor.m2 = .m2 ∧ (Instr.setM1speed 1 = .setM2speed v ∨ Instr.setM1speed 1 = .setM2disable v)) :=
  ⟨by decide, ⟨_, rfl⟩, fun v => by simp⟩

theorem witness_EventsLeaveTheRestUnchanged :
    Instr.bootConnect.isCommand = false ∧ (∀ b, Instr.bootConnect ≠ .evRxByte b) ∧
    ∃ t, exec .bootConnect (s1 .brakingPWM) = .next t := ⟨by decide, fun b => by simp, _, rfl⟩

theorem witness_ForegroundNeverTouchesTheSampler :
    ∃ t, exec (.evRxByte 0x0A) { s2 .brakingPWM with inq := [0x0A] } = .next t := ⟨_, rfl⟩

theorem witness_SamplerNeverTouchesTheForeground :
    (∃ t, exec .isrConvComplete { s2 .brakingPWM with irqPending := true, adcBusy := false } = .next t) ∧
    ∃ t, exec (.evAdcDone 5) (s2 .brakingPWM) = .next t := ⟨⟨_, rfl⟩, _, rfl⟩

theorem witness_NoBitIsWrittenAsASideEffect :
    (∀ b, Instr.setM1speed 1 ≠ .evRxByte b) ∧
    ∃ t r q, exec (.setM1speed 1) (s2 .coastingPWM) = .next t ∧ (s2 .coastingPWM).drive = .coasting r ∧
      t.drive = .coasting q := ⟨fun b => by simp, _, _, _, rfl, rfl, rfl⟩

theorem witness_SamplerRunsIndependentlyOfTheForeground :
    (s2 .brakingPWM).samplerPart = (s2 .coastingPWM).samplerPart ∧
    (s2 .brakingPWM).cfg.adcBits = (s2 .coastingPWM).cfg.adcBits ∧
    ∃ t, conversions [0x1FF, 0x123] (s2 .brakingPWM) = .next t := ⟨rfl, rfl, _, rfl⟩

/-! The whole machine -/

theorem witness_NoStepChangesTheBuild : ∃ t, step (turn .take (s2 .brakingPWM)) = .next t := ⟨_, rfl⟩

/-- A draw out of range in flight, a boot operation after boot, and a step that answers a next state. -/
theorem witness_ExactlyTheHostViolationsAreRefused :
    ((turn (.adc 1024) (s2 .brakingPWM)).sched = [.adc 1024] ∧ (s2 .brakingPWM).adcBusy = true ∧
      (s2 .brakingPWM).irqPending = false ∧ 2 ^ (s2 .brakingPWM).cfg.adcBits ≤ (1024 : U16).toNat) ∧
    ((booting .connect (s2 .brakingPWM)).sched = [.boot] ∧ (booting .connect (s2 .brakingPWM)).bootq = [.connect] ∧
      (booting .connect (s2 .brakingPWM)).booted = true) ∧
    ∃ t, step (booting .connect (s2 .brakingPWM)) = .next t := ⟨by decide, by decide, _, rfl⟩

theorem witness_EveryEnabledInstructionCompletes : RunInv (s2 .brakingPWM) := witness_run_inv _

theorem witness_InvariantHoldsAtReset : Config.default.wf = true := by decide

theorem witness_EveryStepKeepsTheInvariant :
    RunInv (s2 .coastingPWM) ∧ ∃ t, step (s2 .coastingPWM) = .next t := ⟨witness_run_inv _, _, rfl⟩

theorem witness_NoStepOfARunFaults : RunInv (s2 .coastingPWM) := witness_run_inv _

end Sys2Proof.Tests
end

section
/-! PROOFS of the family 00_scope: a step runs the instruction its turn fetches, every enabled instruction completes, and
no step of a run stops. What the later proofs share: the outcomes of `settle`, of a turn and of every instruction, each
said once. -/

namespace Sys2Proof.Machine

/-! ### How a turn ends -/

@[simp] theorem settle_next (s t : State) : settle s (.next t) = .next t := rfl
@[simp] theorem settle_refused (s : State) (r : Refusal) : settle s (.refused r) = .next (markRefused r s) := rfl
@[simp] theorem settle_noStep (s : State) (a : Agent) : settle s (.fault (.noStep a)) = .next s := rfl
@[simp] theorem settle_lineBufferOffset (s : State) (k : Nat) :
    settle s (.fault (.lineBufferOffset k)) = .fault (.lineBufferOffset k) := rfl

/-- Taking a turn uses up HOST's boot operation and nothing else. -/
theorem takeTurn_eq (t : Turn) (s : State) :
    takeTurn t s = { s with bootq := if t = .boot then s.bootq.tail else s.bootq } := by
  cases t <;> rfl

/-- What an agent fetches does not depend on the turns to come. -/
@[simp] theorem fetch_with_sched (t : Turn) (s : State) (rest : List Turn) :
    fetch t { s with sched := rest } = fetch t s := by
  cases t <;> rfl

theorem fetch_fg_cons {s : State} {b : Byte} {l : List Byte} (h : s.inq = b :: l) :
    fetch .fg s = some (.evRxByte b) := by
  simp [fetch, h]

theorem fetch_boot_cons {s : State} {op : BootOp} {l : List BootOp} (h : s.bootq = op :: l) :
    fetch .boot s = some (bootInstr op) := by
  simp [fetch, h]

/-- A step of a turn that fetches an instruction settles what the instruction answers. -/
theorem step_of_fetch {s : State} {t : Turn} {rest : List Turn} {i : Instr} (hs : s.sched = t :: rest)
    (hf : fetch t s = some i) :
    step s = settle (takeTurn t { s with sched := rest }) (exec i (takeTurn t { s with sched := rest })) := by
  rw [step_cons hs, runTurn_of_fetch (by rw [fetch_with_sched, hf])]

/-! ### What an instruction can answer -/

theorem exec_command_next {i : Instr} (h : i.isCommand = true) (s : State) : ∃ t, exec i s = .next t := by
  obtain ⟨c, hc⟩ := commandOf_of_isCommand h
  exact ⟨_, exec_of_command hc s⟩

/-- A boot operation always has a step: it is done or refused (R269). -/
theorem exec_bootInstr_cases (op : BootOp) (s : State) :
    (∃ t, exec (bootInstr op) s = .next t) ∨ ∃ r, exec (bootInstr op) s = .refused r := by
  cases op with
  | connect => cases h : connectAllowed s <;> simp [bootInstr, exec, execBootConnect, h]
  | arm => cases h : armAllowed s <;> simp [bootInstr, exec, execBootArm, h]
  | enable m e => cases h : enableAllowed s <;> simp [bootInstr, exec, execBootEnable, h]
  | done => cases h : doneAllowed s <;> simp [bootInstr, exec, execBootDone, h]

/-- A completion is taken or its draw refused while a conversion is in flight, and has no step otherwise (R112). -/
theorem exec_evAdcDone_cases (a : U16) (s : State) :
    (∃ t, exec (.evAdcDone a) s = .next t) ∨ (∃ r, exec (.evAdcDone a) s = .refused r) ∨
    (¬ (s.adcBusy = true ∧ s.irqPending = false) ∧ exec (.evAdcDone a) s = .fault (.noStep .adc)) := by
  rw [← adcEnabled_iff]
  cases he : adcEnabled s with
  | false => simp [exec, execEvAdcDone, he]
  | true => cases hr : adcInRange s.cfg a <;> simp [exec, execEvAdcDone, he, hr]

/-- The handler runs when its interrupt is pending and connected, and has no step otherwise (R113). -/
theorem exec_isrConvComplete_cases (s : State) :
    (∃ t, exec .isrConvComplete s = .next t) ∨
    (¬ (s.irqPending = true ∧ s.irqEn = true) ∧ exec .isrConvComplete s = .fault (.noStep .isr)) := by
  rw [← irqEnabled_iff]
  cases h : irqEnabled s <;> simp [exec, execIsrConvComplete, takeInterrupt, h]

/-- A line within the capacity is read whole, so processing it completes (R60, R162). -/
theorem processLine_next {s : State} (h : s.lblen ≤ s.cfg.lineCap) : ∃ t, processLine s = .next t := by
  rcases processLine_cases s with ⟨-, e⟩ | ⟨L, c, -, -, -, e⟩ | ⟨L, k, -, -, -, e⟩ | ⟨n, -, hL, -⟩
  · exact ⟨_, e⟩
  · exact ⟨_, e⟩
  · exact ⟨_, e⟩
  · rw [currentLine_eq s h] at hL
    cases hL

/-- A received byte completes when FG is enabled, whatever the byte and the line, and has no step otherwise (R160). -/
theorem exec_evRxByte_cases {s : State} (h : s.lblen ≤ s.cfg.lineCap) (b : Byte) :
    (∃ t, exec (.evRxByte b) s = .next t) ∨
    (¬ (s.booted = true ∧ s.inq.head? = some b) ∧ exec (.evRxByte b) s = .fault (.noStep .fg)) := by
  rw [← rxEnabled_iff]
  rcases execEvRxByte_cases b s with ⟨hr, e⟩ | ⟨-, -, e⟩ | ⟨-, -, e⟩ | ⟨-, -, e⟩
  · exact .inr ⟨by simp [hr], e⟩
  · obtain ⟨t, ht⟩ := processLine_next (s := popIn s) h
    exact .inl ⟨t, e.trans ht⟩
  · exact .inl ⟨_, e⟩
  · exact .inl ⟨_, e⟩

/-- What every instruction can answer while the line fits its buffer: a next state, a refusal of a boot operation or a
draw, or no step of an event that is not enabled. There is no other fault. -/
theorem exec_cases {s : State} (h : s.lblen ≤ s.cfg.lineCap) (i : Instr) :
    (∃ t, exec i s = .next t) ∨
    ((i = .bootConnect ∨ i = .bootArm ∨ (∃ m e, i = .bootEnable m e) ∨ i = .bootDone ∨ ∃ a, i = .evAdcDone a) ∧
      ∃ r, exec i s = .refused r) ∨
    (i = .isrConvComplete ∧ ¬ (s.irqPending = true ∧ s.irqEn = true) ∧ exec i s = .fault (.noStep .isr)) ∨
    (∃ a, i = .evAdcDone a ∧ ¬ (s.adcBusy = true ∧ s.irqPending = false) ∧ exec i s = .fault (.noStep .adc)) ∨
    (∃ b, i = .evRxByte b ∧ ¬ (s.booted = true ∧ s.inq.head? = some b) ∧ exec i s = .fault (.noStep .fg)) := by
  refine (Bool.eq_false_or_eq_true i.isCommand).elim (fun hc => .inl (exec_command_next hc s)) fun hc => ?_
  cases i <;> cases hc
  case evRxByte b =>
    rcases exec_evRxByte_cases h b with hn | ⟨hd, e⟩
    · exact .inl hn
    · exact .inr (.inr (.inr (.inr ⟨b, rfl, hd, e⟩)))
  case evAdcDone a =>
    rcases exec_evAdcDone_cases a s with hn | hr | ⟨hd, e⟩
    · exact .inl hn
    · exact .inr (.inl ⟨by simp, hr⟩)
    · exact .inr (.inr (.inr (.inl ⟨a, rfl, hd, e⟩)))
  case isrConvComplete =>
    rcases exec_isrConvComplete_cases s with hn | ⟨hd, e⟩
    · exact .inl hn
    · exact .inr (.inr (.inl ⟨rfl, hd, e⟩))
  case bootConnect => exact (exec_bootInstr_cases .connect s).imp_right fun hr => .inl ⟨by simp, hr⟩
  case bootArm => exact (exec_bootInstr_cases .arm s).imp_right fun hr => .inl ⟨by simp, hr⟩
  case bootEnable m e => exact (exec_bootInstr_cases (.enable m e) s).imp_right fun hr => .inl ⟨by simp, hr⟩
  case bootDone => exact (exec_bootInstr_cases .done s).imp_right fun hr => .inl ⟨by simp, hr⟩

/-- While the line fits its buffer every turn answers a next state: a refusal is marked and an agent with no step passes
its turn (R10, R269). -/
theorem runTurn_answers_next {s : State} (h : s.lblen ≤ s.cfg.lineCap) (t : Turn) : ∃ u, runTurn t s = .next u := by
  cases hf : fetch t s with
  | none => exact ⟨_, runTurn_of_world hf⟩
  | some i =>
    rw [runTurn_of_fetch hf]
    have hfits : (takeTurn t s).lblen ≤ (takeTurn t s).cfg.lineCap := by simpa using h
    rcases exec_cases hfits i with ⟨u, e⟩ | ⟨-, r, e⟩ | ⟨-, -, e⟩ | ⟨a, -, -, e⟩ | ⟨b, -, -, e⟩ <;> simp [e]

/-! ### The obligations -/

/-- Settles O57: the cases of `exec_cases`, without what an event that is not enabled answers. -/
theorem everyEnabledInstructionCompletes : Obligations.EveryEnabledInstructionCompletes := by
  intro i s hinv
  rcases exec_cases hinv.lblen_le i with hn | hr | ⟨hi, hd, -⟩ | ⟨a, hi, hd, -⟩ | ⟨b, hi, hd, -⟩
  · exact .inl hn
  · exact .inr (.inl hr)
  · exact .inr (.inr (.inl ⟨hi, hd⟩))
  · exact .inr (.inr (.inr (.inl ⟨a, hi, hd⟩)))
  · exact .inr (.inr (.inr (.inr ⟨b, hi, hd⟩)))

/-- Settles O60: the one fault that stops a step is a missing buffer byte, and the invariant keeps `LBLEN` within
`LINE_CAP`. -/
theorem noStepOfARunFaults : Obligations.NoStepOfARunFaults := by
  intro s hinv
  cases hs : s.sched with
  | nil => exact ⟨s, step_nil hs⟩
  | cons t rest =>
    rw [step_cons hs]
    exact runTurn_answers_next (s := { s with sched := rest }) hinv.lblen_le t

/-- Settles O8: `step` settles the outcome of the fetched instruction, and each agent's fetch is read off its queue. -/
theorem stepRunsTheFetchedInstruction : Obligations.StepRunsTheFetchedInstruction := by
  refine ⟨fun s u t rest i hs hf hu => ?_, fun s b l h => fetch_fg_cons h, fun s a => ⟨rfl, rfl⟩,
    fun s l m e => ⟨fetch_boot_cons, fetch_boot_cons, fetch_boot_cons, fetch_boot_cons⟩⟩
  have hstep : step s = settle u (exec i u) := by
    rw [step_of_fetch hs hf, takeTurn_eq, hu]
  refine ⟨fun v h => ?_, fun r h => ?_, fun k h => ?_, fun a h => ?_⟩ <;> rw [hstep, h]
  · exact settle_next u v
  · exact settle_refused u r
  · exact settle_lineBufferOffset u k
  · exact settle_noStep u a

end Sys2Proof.Machine
end

section
/-! PROOFS of the family 10_state: the reset state, the invariant of a run, and which elements a step can write. What a
step can do to the state is said once, as the primitive changes it is made of (`Change`, `step_changes`); each invariant
is then kept by a step because each change keeps it (`step_keeps`). -/

namespace Sys2Proof

/-! ### Responses are text (R95 to R99) -/

theorem Config.wf_iff {c : Config} :
    c.wf = true ↔ c.adcBits ≤ 16 ∧ c.sampleReset.toNat < 2 ^ c.adcBits ∧ c.errText.wf = true := by
  simp [Config.wf, and_assoc]

/-- Every byte of a response is printable, CR or LF. -/
theorem OneResponse.text {r : List Byte} (h : OneResponse r) :
    ∀ b ∈ r, isPrintable b = true ∨ b = Ascii.cr ∨ b = Ascii.lf := by
  obtain ⟨body, -, rfl, hbody⟩ := h
  intro b hb
  rcases List.mem_append.mp hb with hb | hb
  · exact .inl (hbody b hb)
  · exact .inr (by simpa [Ascii.cr, Ascii.lf] using hb)

namespace Machine

theorem errText_printable {e : ErrText} (h : e.wf = true) (k : ErrorKind) :
    ∀ b ∈ errText e k, isPrintable b = true := by
  simp only [ErrText.wf, Bool.and_eq_true, List.all_eq_true] at h
  obtain ⟨⟨⟨⟨hunknown, hmissing⟩, hinteger⟩, hnot⟩, haction⟩ := h
  cases k with
  | unknownToken pos => exact hunknown
  | missingParameter => exact hmissing
  | invalidInteger => exact hinteger
  | notImplemented => exact hnot
  | unsupportedAction => exact haction

theorem hex_printable (pad : HexPad) (w v : Nat) : ∀ b ∈ hex pad w v, isPrintable b = true := by
  have hdigits := digitsFixed_printable (base := 16) (by omega) (by omega) (w / 4) v
  cases pad with
  | minimal => exact fun b hb => hdigits b ((stripZeros_suffix _).subset hb)
  | fixed => exact hdigits

theorem oneResponse_valueResponse (c : Config) (w v : Nat) : OneResponse (valueResponse c w v) := by
  refine ⟨[0x30, 0x78] ++ hex c.hexPad w v, by simp, rfl, fun b hb => ?_⟩
  rcases List.mem_append.mp hb with hb | hb
  · exact (by decide : ∀ b ∈ ([0x30, 0x78] : List Byte), isPrintable b = true) b hb
  · exact hex_printable _ _ _ b hb

theorem oneResponse_invalidResponse : OneResponse invalidResponse :=
  ⟨invalidResponse.take 15, by decide, by decide, by decide⟩

theorem oneResponse_errorLine {e : ErrText} (h : e.wf = true) (k : ErrorKind) :
    OneResponse (errorPrefix ++ errText e k ++ crlf) := by
  refine ⟨errorPrefix ++ errText e k, by simp [errorPrefix], rfl, fun b hb => ?_⟩
  rcases List.mem_append.mp hb with hb | hb
  · exact (by decide : ∀ b ∈ errorPrefix, isPrintable b = true) b hb
  · exact errText_printable h k b hb

theorem oneResponse_errorResponse {c : Config} (h : c.errText.wf = true) (k : ErrorKind) :
    OneResponse (errorResponse c k) :=
  match k with
  | .unknownToken .cmd => oneResponse_invalidResponse
  | .unknownToken .prop => oneResponse_errorLine h (.unknownToken .prop)
  | .missingParameter => oneResponse_errorLine h .missingParameter
  | .invalidInteger => oneResponse_errorLine h .invalidInteger
  | .notImplemented => oneResponse_errorLine h .notImplemented
  | .unsupportedAction => oneResponse_errorLine h .unsupportedAction

/-! ### What a step is made of -/

/-- One primitive change of the state. A step makes none, one, or a few in a row (`step_changes`). -/
inductive Change : State → State → Prop where
  /-- The schedule, HOST's two queues and the marks move on: none is an element of R22 to R28. -/
  | queues (s : State) (inq : List Byte) (bootq : List BootOp) (marks : List Refusal) (sched : List Turn) :
      Change s { s with inq := inq, bootq := bootq, marks := marks, sched := sched }
  /-- HOST removes the first byte of `TXQ` (R167). -/
  | taken (s : State) : Change s { s with txq := s.txq.tail }
  /-- Power comes on (R280). -/
  | poweredOn (s : State) : Change s (powerOn s)
  /-- FG answers a line (R95). -/
  | answered (s : State) (r : List Byte) (hr : s.cfg.wf = true → OneResponse r) : Change s (emit r s)
  /-- A speed is set (R132, R134). -/
  | speedSet (s : State) (m : Motor) (v : I8) : Change s (setSpeed m v s)
  /-- A disable pin is driven (R138). -/
  | disableSet (s : State) (m : Motor) (b : Bool) : Change s (setDisable m b s)
  /-- A printable byte is received (R160). -/
  | byteAccepted (s : State) (b : Byte) (hb : isPrintable b = true) : Change s (acceptByte b s)
  /-- The line is over (R162). -/
  | lineEnded (s : State) : Change s (awaitNextLine s)
  /-- A conversion completes (R112). -/
  | adcDone (s : State) (a : U16) (he : adcEnabled s = true) (hr : adcInRange s.cfg a = true) :
      Change s { s with adcResult := a, adcBusy := false, irqPending := true }
  /-- The handler runs (R113). -/
  | handled (s : State) (he : irqEnabled s = true) : Change s (convComplete s)
  /-- The notification is connected (R110). -/
  | connected (s : State) (ha : connectAllowed s = true) : Change s { s with irqEn := true }
  /-- The sampler is armed (R111). -/
  | armed (s : State) (ha : armAllowed s = true) :
      Change s { s with nextCh := .m1, adcSel := .m1, adcBusy := true, armed := true }
  /-- An enable is written (R136). -/
  | enableSet (s : State) (m : Motor) (e : Bool) : Change s (setEnable m e s)
  /-- Boot is done (R283). -/
  | bootDone (s : State) (ha : doneAllowed s = true) : Change s { s with booted := true }

theorem change_valueResponse (w v : Nat) (s : State) : Change s (emit (valueResponse s.cfg w v) s) :=
  .answered s _ fun _ => oneResponse_valueResponse s.cfg w v

theorem change_raiseError (k : ErrorKind) (s : State) : Change s (raiseError k s) :=
  .answered s _ fun h => oneResponse_errorResponse (Config.wf_iff.mp h).2.2 k

theorem change_answerDisable (m : Motor) (s : State) : Change s (answerDisable m s) := by
  unfold answerDisable
  split
  · exact change_valueResponse 8 _ s
  · exact change_raiseError .notImplemented s

theorem change_disableOrReport (m : Motor) (v : I8) (s : State) : Change s (disableOrReport m v s) := by
  unfold disableOrReport
  split
  · exact .disableSet s m (truth v)
  · exact change_raiseError .notImplemented s

/-- A command is one change: it answers, or it writes a motor's registers. -/
theorem change_commandEffect (s : State) : ∀ c : ParsedCommand, Change s (commandEffect c s)
  | .get .m1Speed | .get .m2Speed => change_valueResponse 8 _ s
  | .get .m1Disable => change_answerDisable .m1 s
  | .get .m2Disable => change_answerDisable .m2 s
  | .get .m1Current | .get .m2Current => change_valueResponse 16 _ s
  | .set .m1Speed v => .speedSet s .m1 v
  | .set .m2Speed v => .speedSet s .m2 v
  | .set .m1Disable v => change_disableOrReport .m1 v s
  | .set .m2Disable v => change_disableOrReport .m2 v s
  | .set .m1Current _ | .set .m2Current _ => change_raiseError .unsupportedAction s
  | .get .led1 | .get .led2 | .get .led3 | .get .led4 => change_raiseError .notImplemented s
  | .set .led1 _ | .set .led2 _ | .set .led3 _ | .set .led4 _ => change_raiseError .notImplemented s

theorem change_popIn (s : State) : Change s (popIn s) := .queues s s.inq.tail s.bootq s.marks s.sched

theorem change_takeTurn (t : Turn) (s : State) : Change s (takeTurn t s) := by
  rw [takeTurn_eq]
  exact .queues s s.inq _ s.marks s.sched

theorem change_markRefused (r : Refusal) (s : State) : Change s (markRefused r s) :=
  .queues s s.inq s.bootq (s.marks ++ [r]) s.sched

/-- Primitive changes made in a row, possibly none. -/
inductive Changes : State → State → Prop where
  | none (s : State) : Changes s s
  | tail {s t u : State} (h : Changes s t) (hc : Change t u) : Changes s u

theorem Change.single {s t : State} (h : Change s t) : Changes s t := .tail (.none s) h

theorem Changes.trans {s t u : State} (hst : Changes s t) (htu : Changes t u) : Changes s u := by
  induction htu with
  | none => exact hst
  | tail _ hc ih => exact .tail ih hc

/-- A received byte is taken off `IN`, and then fills, ends or runs the line. -/
theorem evRxByte_changes {b : Byte} {s t : State} (h : exec (.evRxByte b) s = .next t) :
    Changes s t := by
  have hpop : Changes s (popIn s) := (change_popIn s).single
  obtain ⟨-, rfl | rfl | ⟨c, rfl⟩ | ⟨k, rfl⟩ | ⟨hb, rfl⟩⟩ := exec_evRxByte_next h
  · exact hpop
  · exact hpop.tail (.lineEnded _)
  · exact (hpop.tail (change_commandEffect _ c)).tail (.lineEnded _)
  · exact (hpop.tail (change_raiseError k _)).tail (.lineEnded _)
  · exact hpop.tail (.byteAccepted _ b (classify_printable.mp hb))

theorem event_change {i : Instr} {s t : State} (hi : i.isCommand = false) (hn : ∀ b, i ≠ .evRxByte b)
    (h : exec i s = .next t) : Change s t := by
  rcases exec_event_next hi hn h with ⟨a, -, he, hr, rfl⟩ | ⟨-, he, rfl⟩ | ⟨-, ha, rfl⟩ | ⟨-, ha, rfl⟩ |
    ⟨m, e, -, -, rfl⟩ | ⟨-, ha, rfl⟩
  · exact .adcDone s a he hr
  · exact .handled s he
  · exact .connected s ha
  · exact .armed s ha
  · exact .enableSet s m e
  · exact .bootDone s ha

theorem exec_changes {i : Instr} {s t : State} (hi : i.isCommand = false) (h : exec i s = .next t) :
    Changes s t := by
  by_cases hb : ∃ b, i = .evRxByte b
  · obtain ⟨b, rfl⟩ := hb
    exact evRxByte_changes h
  · exact (event_change hi (not_exists.mp hb) h).single

theorem worldTurn_changes (t : Turn) (s : State) : Changes s (worldTurn t s) := by
  cases t with
  | send b => exact (Change.queues s (s.inq ++ [b]) s.bootq s.marks s.sched).single
  | take => exact (Change.taken s).single
  | powerOn => exact (Change.poweredOn s).single
  | fg | isr | adc | boot => exact .none s

theorem runTurn_changes {t : Turn} {s u : State} (h : runTurn t s = .next u) : Changes s u := by
  have htake : Changes s (takeTurn t s) := (change_takeTurn t s).single
  rcases runTurn_next h with ⟨-, rfl⟩ | ⟨i, hf, he⟩ | ⟨i, a, -, -, rfl⟩ | ⟨i, r, -, -, rfl⟩
  · exact worldTurn_changes t s
  · exact htake.trans (exec_changes (fetch_isEvent hf) he)
  · exact htake
  · exact htake.tail (change_markRefused r _)

/-- Every step is made of the changes of `Change`. -/
theorem step_changes {s t : State} (h : step s = .next t) : Changes s t := by
  cases hs : s.sched with
  | nil =>
    rw [step_nil hs] at h
    cases h
    exact .none s
  | cons turn rest =>
    rw [step_cons hs] at h
    exact (Change.queues s s.inq s.bootq s.marks rest).single.trans (runTurn_changes h)

/-- What each change keeps, a step keeps. -/
theorem step_keeps {P : State → Prop} (hP : ∀ {u v : State}, Change u v → P u → P v) {s t : State}
    (h : step s = .next t) (hs : P s) : P t := by
  have hchanges := step_changes h
  clear h
  induction hchanges with
  | none => exact hs
  | tail _ hc ih => exact hP hc ih

/-! ### The build (R34, R130) -/

theorem atReset_strategy (st : Strategy) (c : Config) (inq : List Byte) (sched : List Turn) :
    (State.atReset st c inq sched).strategy = st := by
  cases st <;> rfl

theorem powerOn_strategy (s : State) : (powerOn s).strategy = s.strategy :=
  atReset_strategy s.strategy s.cfg s.inq s.sched

/-- The only changes of the Motor Driver's registers are a set and a power-on, and each stays with its register set. -/
theorem Change.build_eq {s t : State} (h : Change s t) : t.cfg = s.cfg ∧ t.strategy = s.strategy := by
  cases h with
  | poweredOn => exact ⟨rfl, powerOn_strategy s⟩
  | speedSet m v => exact ⟨setSpeed_cfg m v s, setSpeed_strategy m v s⟩
  | disableSet m b => exact ⟨setDisable_cfg m b s, setDisable_strategy m b s⟩
  | byteAccepted b => exact ⟨acceptByte_cfg b s, by simp [State.strategy]⟩
  | _ => exact ⟨rfl, rfl⟩

/-- Settles O55: no change a step is made of writes the parameters or the register set. -/
theorem noStepChangesTheBuild : Obligations.NoStepChangesTheBuild := fun s _ h =>
  step_keeps (P := fun u => u.cfg = s.cfg ∧ u.strategy = s.strategy)
    (fun hc ⟨hcfg, hst⟩ => ⟨hc.build_eq.1.trans hcfg, hc.build_eq.2.trans hst⟩) h ⟨rfl, rfl⟩

/-! ### Mutual exclusion of the direction duties (R24) -/

/-- A speed has one sign, so one of its two codes is zero (R131). -/
theorem fwdCode_zero_or_revCode_zero (v : I8) : fwdCode v = 0 ∨ revCode v = 0 := by
  by_cases hv : 0 < v.toInt
  · exact .inr (if_neg (by omega))
  · exact .inl (if_neg hv)

theorem brakingSpeed_one_direction (sign : SignConv) (v : I8) :
    (brakingSpeed sign v).dutyF = 0 ∨ (brakingSpeed sign v).dutyR = 0 := by
  cases sign with
  | normal => exact fwdCode_zero_or_revCode_zero v
  | inverted => exact (fwdCode_zero_or_revCode_zero v).symm

theorem oneDirection_setSpeed {s : State} (h : OneDirection s.drive) (m : Motor) (v : I8) :
    OneDirection (setSpeed m v s).drive := by
  cases hd : s.drive with
  | coasting r => rw [setSpeed_of_coasting hd]; trivial
  | braking r =>
    rw [hd] at h
    rw [setSpeed_of_braking hd]
    intro k
    rw [PerMotor.get_set]
    split
    · exact brakingSpeed_one_direction _ v
    · exact h k

theorem oneDirection_setDisable {s : State} (h : OneDirection s.drive) (m : Motor) (b : Bool) :
    OneDirection (setDisable m b s).drive := by
  cases hd : s.drive with
  | coasting r => rw [setDisable_of_coasting hd]; trivial
  | braking r => rwa [setDisable_of_braking hd]

theorem oneDirection_reset (c : Config) (st : Strategy) : OneDirection (Drive.reset c st) := by
  cases st with
  | brakingPWM => intro m; cases m <;> exact .inl rfl
  | coastingPWM => trivial

/-- Only a speed writes the duties, and it leaves one of the two zero. -/
theorem Change.oneDirection {s t : State} (hc : Change s t) (h : OneDirection s.drive) : OneDirection t.drive := by
  cases hc with
  | poweredOn => exact oneDirection_reset s.cfg s.strategy
  | speedSet m v => exact oneDirection_setSpeed h m v
  | disableSet m b => exact oneDirection_setDisable h m b
  | byteAccepted b => rwa [acceptByte_drive]
  | _ => exact h

/-- Settles O38: the reset registers have it, and every change a step is made of keeps it. -/
theorem dutiesStayMutuallyExclusive : Obligations.DutiesStayMutuallyExclusive :=
  ⟨fun st c => oneDirection_reset c st,
    fun _ _ h hstep => step_keeps (P := fun u => OneDirection u.drive) Change.oneDirection hstep h⟩

/-! ### The invariant at reset -/

/-- The state a reset leaves meets the invariant, whatever is in `IN` and on the schedule. -/
theorem runInv_atReset {c : Config} (hc : c.wf = true) (st : Strategy) (inq : List Byte) (sched : List Turn) :
    RunInv (State.atReset st c inq sched) where
  cfg_wf := hc
  lb_wf := ⟨.nil, fun _ hmem => absurd hmem List.not_mem_nil⟩
  lb_in := fun _ hmem => absurd hmem List.not_mem_nil
  lblen_le := Nat.zero_le _
  line_printable := fun i hi => absurd hi (Nat.not_lt_zero i)
  one_direction := oneDirection_reset c st
  samples_in_range := fun m => by cases m <;> exact (Config.wf_iff.mp hc).2.1
  result_in_range := Nat.two_pow_pos c.adcBits
  armed_runs := rfl
  one_conversion := rfl
  channel := fun _ => rfl
  armed_connected := nofun
  booted_armed := nofun
  txq_text := fun _ hmem => absurd hmem List.not_mem_nil

/-- Settles O58: `State.resetWith` is the reset state with an empty `IN` and boot's turns scheduled. -/
theorem invariantHoldsAtReset : Obligations.InvariantHoldsAtReset :=
  ⟨fun st _ hc => runInv_atReset hc st [] _, runInv_atReset (by decide) .brakingPWM [] _⟩

/-! ### Every change keeps the invariant -/

/-- The Motor Driver's registers may become any that keep the direction duties apart. -/
theorem runInv_set_drive {s : State} (h : RunInv s) {d : Drive} (hd : OneDirection d) : RunInv { s with drive := d } :=
  { h with one_direction := hd }

theorem runInv_setSpeed {s : State} (h : RunInv s) (m : Motor) (v : I8) : RunInv (setSpeed m v s) := by
  have hd := oneDirection_setSpeed h.one_direction m v
  cases hs : s.drive with
  | braking r => rw [setSpeed_of_braking hs] at hd ⊢; exact runInv_set_drive h hd
  | coasting r => rw [setSpeed_of_coasting hs] at hd ⊢; exact runInv_set_drive h hd

theorem runInv_setDisable {s : State} (h : RunInv s) (m : Motor) (b : Bool) : RunInv (setDisable m b s) := by
  cases hs : s.drive with
  | braking r => rwa [setDisable_of_braking hs]
  | coasting r => rw [setDisable_of_coasting hs]; exact runInv_set_drive h trivial

theorem runInv_emit {s : State} (h : RunInv s) {r : List Byte} (hr : OneResponse r) : RunInv (emit r s) :=
  { h with txq_text := fun b hb => (List.mem_append.mp hb).elim (h.txq_text b) (hr.text b) }

/-- A byte is written where the line ends, within the buffer, and the line grows by it; a full buffer drops it. -/
theorem runInv_acceptByte {s : State} (h : RunInv s) {b : Byte} (hb : isPrintable b = true) :
    RunInv (acceptByte b s) := by
  unfold acceptByte
  split
  case isFalse => exact h
  case isTrue hroom =>
    refine { h with
      lb_wf := Memory.wf_write h.lb_wf _ _
      lb_in := fun c hc => ?_
      lblen_le := hroom
      line_printable := fun i hi => ?_ }
    · rcases Memory.mem_write hc with ⟨rfl, -⟩ | hc
      · exact hroom
      · exact h.lb_in c hc
    · rcases Nat.lt_succ_iff_lt_or_eq.mp hi with hi | rfl
      · rw [Memory.read_write_other _ _ (Nat.ne_of_lt hi)]
        exact h.line_printable i hi
      · rwa [Memory.read_write_same h.lb_wf]

theorem runInv_awaitNextLine {s : State} (h : RunInv s) : RunInv (awaitNextLine s) :=
  { h with lblen_le := Nat.zero_le _, line_printable := fun i hi => absurd hi (Nat.not_lt_zero i) }

/-- The conversion in flight becomes a pending completion, with the same channel (R112). -/
theorem runInv_adcDone {s : State} (h : RunInv s) {a : U16} (he : adcEnabled s = true)
    (hr : adcInRange s.cfg a = true) :
    RunInv { s with adcResult := a, adcBusy := false, irqPending := true } := by
  obtain ⟨hbusy, -⟩ := adcEnabled_iff.mp he
  exact { h with
    result_in_range := adcInRange_iff.mp hr
    armed_runs := by simpa [hbusy] using h.armed_runs
    one_conversion := rfl
    channel := fun _ => h.channel (by simp [hbusy]) }

/-- The pending completion becomes the next conversion in flight, of the other channel (R113). -/
theorem runInv_convComplete {s : State} (h : RunInv s) (he : irqEnabled s = true) : RunInv (convComplete s) := by
  obtain ⟨hpending, -⟩ := irqEnabled_iff.mp he
  refine { h with
    samples_in_range := fun m => ?_
    armed_runs := by simpa [hpending] using h.armed_runs
    one_conversion := rfl
    channel := fun _ => rfl }
  rw [convComplete_sample, PerMotor.get_set]
  split
  · exact h.result_in_range
  · exact h.samples_in_range m

/-- Before it is armed the sampler is idle, so the first conversion is the only one (R111, R258). -/
theorem runInv_arm {s : State} (h : RunInv s) (ha : armAllowed s = true) :
    RunInv { s with nextCh := .m1, adcSel := .m1, adcBusy := true, armed := true } := by
  obtain ⟨-, harmed, hconnected⟩ := armAllowed_iff.mp ha
  have hpending : s.irqPending = false := by
    have hidle := h.armed_runs.symm.trans harmed
    exact (Bool.or_eq_false_iff.mp hidle).2
  exact { h with
    armed_runs := rfl
    one_conversion := hpending
    channel := fun _ => rfl
    armed_connected := fun _ => hconnected
    booted_armed := fun _ => rfl }

theorem runInv_change {s t : State} (h : RunInv s) (hc : Change s t) : RunInv t := by
  cases hc with
  | queues | enableSet => exact { h with }
  | taken => exact { h with txq_text := fun b hb => h.txq_text b (List.mem_of_mem_tail hb) }
  | poweredOn => exact { runInv_atReset h.cfg_wf s.strategy s.inq s.sched with }
  | answered r hr => exact runInv_emit h (hr h.cfg_wf)
  | speedSet m v => exact runInv_setSpeed h m v
  | disableSet m b => exact runInv_setDisable h m b
  | byteAccepted b hb => exact runInv_acceptByte h hb
  | lineEnded => exact runInv_awaitNextLine h
  | adcDone a he hr => exact runInv_adcDone h he hr
  | handled he => exact runInv_convComplete h he
  | connected => exact { h with armed_connected := fun _ => rfl }
  | armed ha => exact runInv_arm h ha
  | bootDone ha => exact { h with booted_armed := fun _ => (doneAllowed_iff.mp ha).2 }

/-- Settles O59: every change a step is made of keeps the invariant. -/
theorem everyStepKeepsTheInvariant : Obligations.EveryStepKeepsTheInvariant := fun _ _ h hstep =>
  step_keeps (fun hc hu => runInv_change hu hc) hstep h

/-! ### The reset table (R33) -/

/-- A motor that is not enabled sleeps, whatever its registers (R137, R145). -/
theorem mode_of_disabled {m : Motor} {s : State} (h : s.en.get m = false) : mode m s = .sleep := by
  cases hd : s.drive <;> simp [mode, hd, brakingMode, coastingMode, h]

theorem encDuty_zero (coastInvert : Bool) : encDuty coastInvert 0 = if coastInvert then 255 else 0 := by
  cases coastInvert <;> rfl

/-- Settles O11: the values are read off `State.atReset`; asleep is what not enabled means. -/
theorem resetHoldsTheValuesOfTheTable : Obligations.ResetHoldsTheValuesOfTheTable := by
  rintro st c s rfl
  refine ⟨atReset_strategy st c [] _, rfl, fun m => ?_, rfl, rfl, rfl, rfl, rfl, rfl, rfl, rfl⟩
  have hen : (State.resetWith st c).en.get m = false := by cases m <;> rfl
  refine ⟨hen, by cases m <;> rfl, mode_of_disabled hen, ?_, ?_⟩ <;> rintro rfl
  · exact ⟨_, rfl, by cases m <;> rfl, by cases m <;> rfl⟩
  · exact ⟨_, rfl, by cases m <;> exact encDuty_zero c.coastInvert, by cases m <;> rfl, by cases m <;> rfl⟩

/-! ### Which instruction writes which bit (R29) -/

theorem eq_ofSet_of_commandOf {i : Instr} {p : PropertyId} {v : I8} (h : commandOf i = some (.set p v)) :
    i = Instr.ofSet p v := by
  cases i <;> cases h <;> rfl

@[simp] theorem commandEffect_en (c : ParsedCommand) (s : State) : (commandEffect c s).en = s.en := by
  rw [commandEffect_eq]

section
variable {s : State} {r q : PerMotor CoastingRegs}

/-- A speed keeps every Hi-Z bit (R134). -/
theorem setSpeed_hiz {k : Motor} {v : I8} (hs : s.drive = .coasting r) (ht : (setSpeed k v s).drive = .coasting q)
    (m : Motor) : (q.get m).hiz = (r.get m).hiz := by
  rw [setSpeed_of_coasting hs] at ht
  cases ht
  rw [PerMotor.get_set]
  split
  next hm => rw [hm]; rfl
  next => rfl

/-- A disable keeps every direction (R138). -/
theorem setDisable_dirf {k : Motor} {b : Bool} (hs : s.drive = .coasting r)
    (ht : (setDisable k b s).drive = .coasting q) (m : Motor) : (q.get m).dirf = (r.get m).dirf := by
  rw [setDisable_of_coasting hs] at ht
  cases ht
  rw [PerMotor.get_set]
  split
  next hm => rw [hm]
  next => rfl

theorem coasting_regs_eq {t : State} (h : t.drive = s.drive) (hs : s.drive = .coasting r)
    (ht : t.drive = .coasting q) : q = r :=
  Drive.coasting.inj (ht.symm.trans (h.trans hs))

/-- Of the commands only the disable sets write a Hi-Z bit. -/
theorem commandEffect_hiz {c : ParsedCommand} (hc : ∀ v, c ≠ .set .m1Disable v ∧ c ≠ .set .m2Disable v)
    (hs : s.drive = .coasting r) (ht : (commandEffect c s).drive = .coasting q) (m : Motor) :
    (q.get m).hiz = (r.get m).hiz := by
  rcases commandEffect_cases c s with ⟨_, -, e⟩ | ⟨v, ⟨-, e⟩ | ⟨-, e⟩⟩ | ⟨v, _, -, ⟨hm, -⟩ | ⟨hm, -⟩⟩
  · rw [e] at ht
    rw [coasting_regs_eq (emit_drive _ s) hs ht]
  · exact setSpeed_hiz hs (e ▸ ht) m
  · exact setSpeed_hiz hs (e ▸ ht) m
  · exact absurd hm (hc v).1
  · exact absurd hm (hc v).2

/-- Of the commands only the speed sets write a direction. -/
theorem commandEffect_dirf {c : ParsedCommand} (hc : ∀ v, c ≠ .set .m1Speed v ∧ c ≠ .set .m2Speed v)
    (hs : s.drive = .coasting r) (ht : (commandEffect c s).drive = .coasting q) (m : Motor) :
    (q.get m).dirf = (r.get m).dirf := by
  rcases commandEffect_cases c s with ⟨_, -, e⟩ | ⟨v, ⟨hm, -⟩ | ⟨hm, -⟩⟩ | ⟨v, _, -, ⟨-, e⟩ | ⟨-, e⟩⟩
  · rw [e] at ht
    rw [coasting_regs_eq (emit_drive _ s) hs ht]
  · exact absurd hm (hc v).1
  · exact absurd hm (hc v).2
  · exact setDisable_dirf hs (e ▸ ht) m
  · exact setDisable_dirf hs (e ▸ ht) m

end

/-- An event that is no received byte keeps the Motor Driver's registers, and only `BOOT_ENABLE` writes an enable. -/
theorem event_motor_frame {i : Instr} {s t : State} (hi : i.isCommand = false) (hn : ∀ b, i ≠ .evRxByte b)
    (h : exec i s = .next t) : t.drive = s.drive ∧ ((∀ m e, i ≠ .bootEnable m e) → t.en = s.en) := by
  rcases exec_event_next hi hn h with ⟨a, -, -, -, rfl⟩ | ⟨-, -, rfl⟩ | ⟨-, -, rfl⟩ | ⟨-, -, rfl⟩ |
    ⟨m, e, rfl, -, rfl⟩ | ⟨-, -, rfl⟩
  case inr.inr.inr.inr.inl => exact ⟨rfl, fun hne => absurd rfl (hne m e)⟩
  all_goals exact ⟨rfl, fun _ => rfl⟩

/-- Settles O53: a command writes no enable and only the bit its own form names, an event no register of the Motor
Driver. -/
theorem noBitIsWrittenAsASideEffect : Obligations.NoBitIsWrittenAsASideEffect := by
  intro i s t hn h
  cases hi : i.isCommand with
  | false =>
    obtain ⟨hdrive, hen⟩ := event_motor_frame hi hn h
    refine ⟨hen, fun r q m hs ht => ?_⟩
    rw [coasting_regs_eq hdrive hs ht]
    exact ⟨fun _ => rfl, fun _ => rfl⟩
  | true =>
    obtain ⟨c, hc⟩ := commandOf_of_isCommand hi
    rw [exec_of_command hc] at h
    cases h
    have hform : ∀ {p v}, i ≠ Instr.ofSet p v → c ≠ .set p v := by
      rintro p v hne rfl
      exact hne (eq_ofSet_of_commandOf hc)
    exact ⟨fun _ => commandEffect_en c s, fun r q m hs ht =>
      ⟨fun hne => commandEffect_hiz (fun v => ⟨hform (hne v).1, hform (hne v).2⟩) hs ht m,
        fun hne => commandEffect_dirf (fun v => ⟨hform (hne v).1, hform (hne v).2⟩) hs ht m⟩⟩

end Machine

end Sys2Proof
end

section
/-! PROOFS of the family 20_memory: a `set` that answers nothing is idempotent (R65). Each of the two register writes is
idempotent, and a silent command is one of them (`commandEffect_cases`). -/

namespace Sys2Proof

@[simp] theorem PerMotor.set_set {α : Type} (x : PerMotor α) (m : Motor) (v w : α) :
    (x.set m v).set m w = x.set m w := by
  cases m <;> rfl

namespace Machine

/-! ### The register writes are idempotent -/

/-- The sign of the speed alone decides the direction, and a zero speed leaves the one there is. -/
@[simp] theorem direction_direction (sign : SignConv) (v : I8) (dirf : Bool) :
    direction sign v (direction sign v dirf) = direction sign v dirf := by
  unfold direction
  by_cases hpos : 0 < v.toInt
  · simp only [if_pos hpos]
  · by_cases hneg : v.toInt < 0
    · simp only [if_neg hpos, if_pos hneg]
    · simp only [if_neg hpos, if_neg hneg]

@[simp] theorem coastingSpeed_coastingSpeed (coastInvert : Bool) (sign : SignConv) (v : I8) (r : CoastingRegs) :
    coastingSpeed coastInvert sign v (coastingSpeed coastInvert sign v r) = coastingSpeed coastInvert sign v r := by
  simp only [coastingSpeed, direction_direction]

theorem setSpeed_setSpeed (m : Motor) (v : I8) (s : State) : setSpeed m v (setSpeed m v s) = setSpeed m v s := by
  cases hs : s.drive with
  | braking r =>
    rw [setSpeed_of_braking hs, setSpeed_of_braking (s := { s with drive := .braking _ }) rfl, PerMotor.set_set]
  | coasting r =>
    rw [setSpeed_of_coasting hs, setSpeed_of_coasting (s := { s with drive := .coasting _ }) rfl, PerMotor.set_set,
      PerMotor.get_set_self, coastingSpeed_coastingSpeed]

theorem setDisable_setDisable (m : Motor) (b : Bool) (s : State) :
    setDisable m b (setDisable m b s) = setDisable m b s := by
  cases hs : s.drive with
  | braking r => rw [setDisable_of_braking hs, setDisable_of_braking hs]
  | coasting r =>
    rw [setDisable_of_coasting hs, setDisable_of_coasting (s := { s with drive := .coasting _ }) rfl, PerMotor.set_set,
      PerMotor.get_set_self]

/-- A driven pin is one the build has, so the next disable drives it again and reports nothing (R139). -/
theorem disableOrReport_setDisable {s : State} {r : PerMotor CoastingRegs} (hs : s.drive = .coasting r) (m : Motor)
    (v : I8) : disableOrReport m v (setDisable m (truth v) s) = setDisable m (truth v) s := by
  have hdrive : (setDisable m (truth v) s).drive = .coasting (r.set m { r.get m with hiz := truth v }) := by
    rw [setDisable_of_coasting hs]
  rw [disableOrReport_of_coasting hdrive, setDisable_setDisable]

/-! ### The obligation -/

/-- A command that answers nothing writes one motor's registers, and the same write again changes nothing. -/
theorem commandEffect_silent_idempotent {c : ParsedCommand} {s : State} (h : (commandEffect c s).txq = s.txq) :
    commandEffect c (commandEffect c s) = commandEffect c s := by
  rcases commandEffect_cases c s with ⟨r, hr, e⟩ | ⟨v, ⟨rfl, -⟩ | ⟨rfl, -⟩⟩ | ⟨v, r, hs, ⟨rfl, e⟩ | ⟨rfl, e⟩⟩
  · rw [e, emit_txq] at h
    exact absurd (List.append_right_eq_self.mp h) hr
  · exact setSpeed_setSpeed .m1 v s
  · exact setSpeed_setSpeed .m2 v s
  · rw [e]
    exact disableOrReport_setDisable hs .m1 v
  · rw [e]
    exact disableOrReport_setDisable hs .m2 v

/-- Settles O44: each of the four forms is a command, and every silent command is idempotent. -/
theorem silentSetIsIdempotent : Obligations.SilentSetIsIdempotent := by
  intro s t v i hi hexec hsilent
  have hcommand : i.isCommand = true := by
    simp only [List.mem_cons, List.not_mem_nil, or_false] at hi
    rcases hi with rfl | rfl | rfl | rfl <;> rfl
  obtain ⟨c, hc⟩ := commandOf_of_isCommand hcommand
  rw [exec_of_command hc] at hexec ⊢
  cases hexec
  rw [commandEffect_silent_idempotent hsilent]

end Machine

end Sys2Proof
end

section
/-! PROOFS of the family 30_encoding: which lines decode and to what (R81, R86 to R91), and what a response is made of
(R96 to R99). What a line parses to is said once, for every byte list (`parseLine_cases`); the decoder follows the
parser, so the lines that decode and the lines that are answered by an error are read off it. -/

namespace Sys2Proof

/-! ### The two command lines (R82) -/

/-- A `get` line, format G. -/
def getLine (p : PropertyId) (t : Option (List Byte)) : List Byte := cmdGet ++ Ascii.sp :: (p.name ++ tailBytes t)

/-- A `set` line with the VALUE field `V`, format S. -/
def setLine (p : PropertyId) (V : List Byte) : List Byte := cmdSet ++ Ascii.sp :: (p.name ++ Ascii.sp :: V)

theorem parseLine_getLine (p : PropertyId) (t : Option (List Byte)) : parseLine (getLine p t) = .ok (.get p) :=
  (parseLine_get (some (p.name ++ tailBytes t))).trans (parseStep2_name false p t)

/-- What a `set` line parses to is its VALUE field's matter alone. -/
theorem parseLine_setLine (p : PropertyId) (V : List Byte) : parseLine (setLine p V) = parseStep3 p (some V) :=
  (parseLine_set (some (p.name ++ tailBytes (some V)))).trans (parseStep2_name true p (some V))

theorem parseStep3_some {p : PropertyId} {V : List Byte} {v : I8} (h : IsNumeral V v) :
    parseStep3 p (some V) = .ok (.set p v) := by
  simp only [parseStep3, parseValue_eq_some.mpr h]

theorem parseStep3_invalid {p : PropertyId} {V : List Byte} (h : ¬ ∃ v, IsNumeral V v) :
    parseStep3 p (some V) = .error .invalidInteger := by
  have hnone : parseValue V = none :=
    Option.eq_none_iff_forall_ne_some.mpr fun v hv => h ⟨v, parseValue_eq_some.mp hv⟩
  simp only [parseStep3, hnone]

theorem lineTail_getLine (p : PropertyId) (t : Option (List Byte)) : lineTail (getLine p t) = t := by
  have hcmd : splitSp (getLine p t) = (cmdGet, some (p.name ++ tailBytes t)) :=
    splitSp_token cmdGet_no_sp (some (p.name ++ tailBytes t))
  simp only [lineTail, hcmd, splitSp_token (name_no_sp p)]

/-! ### What a line parses to (R180) -/

theorem parseStep2_cases (isSet : Bool) (r : Option (List Byte)) :
    parseStep2 isSet r = .error .missingParameter ∨ parseStep2 isSet r = .error (.unknownToken .prop) ∨
    ∃ p t, r = some (PropertyId.name p ++ tailBytes t) := by
  cases r with
  | none => exact .inl rfl
  | some l =>
    rw [splitSp_join l]
    by_cases hempty : (splitSp l).1 = []
    · rw [hempty]
      exact .inl (parseStep2_empty isSet _)
    by_cases hname : ∃ p : PropertyId, (splitSp l).1 = p.name
    · obtain ⟨p, hp⟩ := hname
      exact .inr (.inr ⟨p, (splitSp l).2, by rw [hp]⟩)
    · exact .inr (.inl (parseStep2_unknown isSet (splitSp_no_sp l) hempty (not_exists.mp hname) _))

/-- Every byte list is one of the two command lines, or parses to one of the errors of R87 to R90. -/
theorem parseLine_cases (L : List Byte) :
    (∃ p t, L = getLine p t) ∨ (∃ p v V, IsNumeral V v ∧ L = setLine p V) ∨
    ∃ k, parseLine L = .error k ∧
      (k = .unknownToken .cmd ∨ k = .unknownToken .prop ∨ k = .missingParameter ∨ k = .invalidInteger) := by
  rw [splitSp_join L]
  by_cases hget : (splitSp L).1 = cmdGet
  · rw [hget]
    rcases parseStep2_cases false (splitSp L).2 with h | h | ⟨p, t, h⟩
    · exact .inr (.inr ⟨_, (parseLine_get _).trans h, by simp⟩)
    · exact .inr (.inr ⟨_, (parseLine_get _).trans h, by simp⟩)
    · exact .inl ⟨p, t, by rw [h]; rfl⟩
  by_cases hset : (splitSp L).1 = cmdSet
  · rw [hset]
    rcases parseStep2_cases true (splitSp L).2 with h | h | ⟨p, t, h⟩
    · exact .inr (.inr ⟨_, (parseLine_set _).trans h, by simp⟩)
    · exact .inr (.inr ⟨_, (parseLine_set _).trans h, by simp⟩)
    rw [h]
    cases t with
    | none => exact .inr (.inr ⟨.missingParameter, (parseLine_set _).trans (parseStep2_name true p none), by simp⟩)
    | some V =>
      by_cases hV : ∃ v, IsNumeral V v
      · obtain ⟨v, hv⟩ := hV
        exact .inr (.inl ⟨p, v, V, hv, rfl⟩)
      · exact .inr (.inr ⟨_, (parseLine_setLine p V).trans (parseStep3_invalid hV), by simp⟩)
  · exact .inr (.inr ⟨_, parseLine_other (splitSp_no_sp L) hget hset _, by simp⟩)

/-! ### The decoder follows the parser (R86 to R91) -/

theorem decode_of_ok {L : List Byte} {c : ParsedCommand} (h : parseLine L = .ok c) : decode L = .ok (instrOf L c) := by
  cases L with
  | nil => cases h
  | cons b l => simp only [decode, h]

theorem decode_of_error {L : List Byte} {k : ErrorKind} (h0 : L ≠ []) (h : parseLine L = .error k) :
    decode L = .error (.command k) := by
  cases L with
  | nil => exact absurd rfl h0
  | cons b l => simp only [decode, h]

theorem decode_ne_ok_of_error {L : List Byte} {k : ErrorKind} (h : parseLine L = .error k) (i : Instr) :
    decode L ≠ .ok i := by
  by_cases h0 : L = []
  · rw [h0]
    nofun
  · rw [decode_of_error h0 h]
    nofun

theorem decode_getLine (p : PropertyId) (t : Option (List Byte)) : decode (getLine p t) = .ok (Instr.ofGet p t) := by
  rw [decode_of_ok (parseLine_getLine p t), instrOf, lineTail_getLine]

theorem decode_setLine (p : PropertyId) {V : List Byte} {v : I8} (h : IsNumeral V v) :
    decode (setLine p V) = .ok (Instr.ofSet p v) :=
  decode_of_ok ((parseLine_setLine p V).trans (parseStep3_some h))

/-- Settles O2: the two lines decode (`decode_getLine`, `decode_setLine`), and every other byte list parses to an
error. -/
theorem linesDecodeExactlyByTheGrammar : Obligations.LinesDecodeExactlyByTheGrammar := by
  refine ⟨fun L i => ⟨fun h => ?_, ?_⟩, rfl, fun L h0 => ?_⟩
  · rcases parseLine_cases L with ⟨p, t, rfl⟩ | ⟨p, v, V, hv, rfl⟩ | ⟨k, hk, -⟩
    · exact .inl ⟨p, t, Except.ok.inj (h.symm.trans (decode_getLine p t)), rfl⟩
    · exact .inr ⟨p, v, V, Except.ok.inj (h.symm.trans (decode_setLine p hv)), hv, rfl⟩
    · exact absurd h (decode_ne_ok_of_error hk i)
  · rintro (⟨p, t, rfl, rfl⟩ | ⟨p, v, V, rfl, hv, rfl⟩)
    · exact decode_getLine p t
    · exact decode_setLine p hv
  · rcases parseLine_cases L with ⟨p, t, rfl⟩ | ⟨p, v, V, hv, rfl⟩ | ⟨k, hk, hkind⟩
    · exact .inl ⟨_, decode_getLine p t⟩
    · exact .inl ⟨_, decode_setLine p hv⟩
    · rw [decode_of_error h0 hk]
      rcases hkind with rfl | rfl | rfl | rfl <;> simp

/-! ### Encode, then decode (R82, R86) -/

theorem eq_ofGet_of_format {i : Instr} {p : PropertyId} {t : Option (List Byte)} (h : i.format = .get p t) :
    i = Instr.ofGet p t := by
  cases i <;> cases h <;> rfl

theorem eq_ofSet_of_format {i : Instr} {p : PropertyId} {v : I8} (h : i.format = .set p v) : i = Instr.ofSet p v :=
  Machine.eq_ofSet_of_commandOf (by simp only [Machine.commandOf, h])

theorem lineForm (i : Instr) : Laws.LineForm.Statement i := by
  cases h : i.format with
  | get p t => exact Laws.lineForm_of_get h
  | set p v => exact Laws.lineForm_of_set h
  | event => exact Laws.lineForm_of_event h

theorem encode_of_get {i : Instr} {p : PropertyId} {t : Option (List Byte)} (h : i.format = .get p t) :
    encode i = some (getLine p t) := by
  simp only [encode, h, getLine]

theorem encode_of_set {i : Instr} {p : PropertyId} {v : I8} (h : i.format = .set p v) :
    encode i = some (setLine p (decimal v)) := by
  simp only [encode, h, setLine]

theorem encode_of_event {i : Instr} (h : i.format = .event) : encode i = none := by
  simp only [encode, h]

theorem encode_eq_none {i : Instr} (h : encode i = none) : i.isCommand = false := by
  cases hf : i.format with
  | get p t => cases (encode_of_get hf).symm.trans h
  | set p v => cases (encode_of_set hf).symm.trans h
  | event => simp [Instr.isCommand, hf]

/-- The encoder writes the line the decoder reads, the value as its shortest numeral. -/
theorem decode_encode {i : Instr} {L : List Byte} (h : encode i = some L) : decode L = .ok i := by
  cases hf : i.format with
  | get p t =>
    rw [← Option.some.inj ((encode_of_get hf).symm.trans h), eq_ofGet_of_format hf]
    exact decode_getLine p t
  | set p v =>
    rw [← Option.some.inj ((encode_of_set hf).symm.trans h), eq_ofSet_of_format hf]
    exact decode_setLine p (parseValue_eq_some.mp (parseValue_decimal v))
  | event => cases (encode_of_event hf).symm.trans h

/-- Settles O1: the encoder's line decodes to the command it came from (`decode_encode`) and fits the line assembler
(`lineForm`). -/
theorem decodeOfEncodeIsTheInstruction : Obligations.DecodeOfEncodeIsTheInstruction := by
  intro c i hwf
  cases h : encode i with
  | none => exact encode_eq_none h
  | some L =>
    obtain ⟨-, hlength, hprintable⟩ := lineForm i c L hwf h
    exact ⟨decode_encode h, hlength, hprintable⟩

/-- Settles O3: five closed lines, run through the decoder. -/
theorem specLinesDecode : Obligations.SpecLinesDecode := ⟨rfl, rfl, rfl, rfl, rfl⟩

/-! ### Hexadecimal digits (R96) -/

theorem hexValue_digit_cons {d : Nat} (h : d < 16) (acc : Nat) (l : List Byte) :
    hexValue acc (Ascii.digit d :: l) = hexValue (16 * acc + d) l := by
  by_cases hd : d < 10
  · have hbyte : (Ascii.digit d).toNat = 0x30 + d := by
      rw [Ascii.digit, if_pos hd, BitVec.toNat_ofNat]; omega
    rw [hexValue, hbyte, if_pos (by omega), Nat.add_sub_cancel_left]
  · have hbyte : (Ascii.digit d).toNat = 0x37 + d := by
      rw [Ascii.digit, if_neg hd, BitVec.toNat_ofNat]; omega
    rw [hexValue, hbyte, if_neg (by omega), if_pos (by omega), Nat.add_sub_cancel_left]

/-- The last `k` digits of a value read as the value modulo `16^k`. -/
theorem hexValue_digitsFixed_append (k v acc : Nat) (l : List Byte) :
    hexValue acc (digitsFixed 16 k v ++ l) = hexValue (16 ^ k * acc + v % 16 ^ k) l := by
  induction k generalizing v l with
  | zero => simp [digitsFixed, Nat.mod_one]
  | succ k ih =>
    have hmod : v % 16 ^ (k + 1) = 16 * (v / 16 % 16 ^ k) + v % 16 := by
      rw [Nat.pow_succ, Nat.mul_comm, Nat.mod_mul, Nat.add_comm]
    have hacc : 16 * (16 ^ k * acc + v / 16 % 16 ^ k) + v % 16
        = 16 ^ (k + 1) * acc + (16 * (v / 16 % 16 ^ k) + v % 16) := by
      rw [Nat.mul_add, ← Nat.mul_assoc, Nat.pow_succ, Nat.mul_comm 16 (16 ^ k), Nat.add_assoc]
    rw [digitsFixed, List.append_assoc, ih, List.singleton_append, hexValue_digit_cons (Nat.mod_lt _ (by decide)), hmod,
      hacc]

theorem hexValue_digitsFixed {k v : Nat} (h : v < 16 ^ k) : hexValue 0 (digitsFixed 16 k v) = some v := by
  have hread := hexValue_digitsFixed_append k v 0 []
  rwa [List.append_nil, Nat.mul_zero, Nat.zero_add, Nat.mod_eq_of_lt h] at hread

theorem stripZeros_zero_cons (e : Byte) (l : List Byte) : stripZeros (Ascii.zero :: e :: l) = stripZeros (e :: l) :=
  if_pos rfl

theorem stripZeros_cons_of_ne {d : Byte} (h : d ≠ Ascii.zero) (l : List Byte) : stripZeros (d :: l) = d :: l := by
  cases l with
  | nil => rfl
  | cons e l => exact if_neg h

theorem hexValue_zero_cons (l : List Byte) : hexValue 0 (Ascii.zero :: l) = hexValue 0 l :=
  hexValue_digit_cons (d := 0) (by decide) 0 l

/-- Leading zero digits do not count. -/
theorem hexValue_stripZeros (l : List Byte) : hexValue 0 (stripZeros l) = hexValue 0 l := by
  induction l with
  | nil => rfl
  | cons d l ih =>
    by_cases hd : d = Ascii.zero
    · cases l with
      | nil => rfl
      | cons e l => rw [hd, stripZeros_zero_cons, ih, hexValue_zero_cons]
    · rw [stripZeros_cons_of_ne hd]

/-- A zero digit is left in front only when it is the one digit. -/
theorem stripZeros_eq_zero_of_head {l : List Byte} (h : (stripZeros l).head? = some Ascii.zero) :
    stripZeros l = [Ascii.zero] := by
  induction l with
  | nil => cases h
  | cons d l ih =>
    by_cases hd : d = Ascii.zero
    · cases l with
      | nil => rw [hd]; rfl
      | cons e l =>
        rw [hd, stripZeros_zero_cons] at h ⊢
        exact ih h
    · rw [stripZeros_cons_of_ne hd] at h
      exact absurd (Option.some.inj h) hd

namespace Machine

theorem hexValue_hex (pad : HexPad) {w v : Nat} (h : v < 16 ^ (w / 4)) : hexValue 0 (hex pad w v) = some v := by
  cases pad with
  | minimal => exact (hexValue_stripZeros _).trans (hexValue_digitsFixed h)
  | fixed => exact hexValue_digitsFixed h

theorem hex_fixed_length (w v : Nat) : (hex .fixed w v).length = w / 4 := digitsFixed_length 16 (w / 4) v

theorem hex_minimal_ne_nil {w : Nat} (h : 0 < w / 4) (v : Nat) : hex .minimal w v ≠ [] :=
  stripZeros_ne_nil (List.ne_nil_of_length_pos (by rwa [digitsFixed_length]))

/-- Under `Minimal` only the value 0 begins with a zero digit, and that digit is all of it. -/
theorem hex_minimal_of_head_zero {w v : Nat} (hv : v < 16 ^ (w / 4)) (h : (hex .minimal w v).head? = some Ascii.zero) :
    v = 0 ∧ hex .minimal w v = [Ascii.zero] := by
  have hdigit : hex .minimal w v = [Ascii.zero] := stripZeros_eq_zero_of_head h
  have hvalue := hexValue_hex .minimal hv
  rw [hdigit] at hvalue
  exact ⟨(Option.some.inj hvalue).symm, hdigit⟩

/-- Settles O45: the digits of `hex` read back to the value, and padding decides how many there are. -/
theorem hexDigitsSpellTheValue : Obligations.HexDigitsSpellTheValue := by
  intro c w v hw hv
  have hdigits : 0 < w / 4 ∧ v < 16 ^ (w / 4) := by
    rcases hw with rfl | rfl <;> exact ⟨by decide, hv⟩
  refine ⟨hex c.hexPad w v, rfl, rfl, hexValue_hex c.hexPad hdigits.2, fun hpad => ?_, fun hpad => ?_⟩ <;> rw [hpad]
  · exact hex_fixed_length w v
  · exact ⟨fun h0 => hex_minimal_ne_nil hdigits.1 v (List.eq_nil_of_length_eq_zero h0), hex_minimal_of_head_zero hdigits.2⟩

/-! ### What a line that does not parse is answered (R87 to R90) -/

/-- A line with a parse error decodes to no command, and its interpretation appends the error's response and writes
nothing else. -/
theorem rejected_line {L : List Byte} {k : ErrorKind} (h : parseLine L = .error k) (s : State) :
    (∀ i, decode L ≠ .ok i) ∧ interpret L s = .next { s with txq := s.txq ++ errorResponse s.cfg k } :=
  ⟨decode_ne_ok_of_error h, interpret_error h s⟩

/-- Settles O4: step 1 of the parser fails. -/
theorem unknownCommandIsAnsweredInvalid : Obligations.UnknownCommandIsAnsweredInvalid :=
  fun _ r s hsp hget hset => rejected_line (parseLine_other hsp hget hset r) s

/-- Settles O5: step 2 of the parser finds no name, for either command. -/
theorem unknownPropertyIsAnsweredUnknownToken : Obligations.UnknownPropertyIsAnsweredUnknownToken := by
  rintro C T r s (rfl | rfl) h0 hsp hname
  · exact rejected_line ((parseLine_get _).trans (parseStep2_unknown false hsp h0 hname r)) s
  · exact rejected_line ((parseLine_set _).trans (parseStep2_unknown true hsp h0 hname r)) s

/-- Settles O6: step 2 of the parser finds no token, or step 3 no field. -/
theorem absentPartIsAnsweredMissingParameter : Obligations.AbsentPartIsAnsweredMissingParameter := by
  rintro L s (rfl | rfl | ⟨r, rfl⟩ | ⟨r, rfl⟩ | ⟨p, rfl⟩)
  · exact rejected_line (parseLine_get none) s
  · exact rejected_line (parseLine_set none) s
  · exact rejected_line ((parseLine_get _).trans (parseStep2_empty false r)) s
  · exact rejected_line ((parseLine_set _).trans (parseStep2_empty true r)) s
  · have hstep := parseStep2_name true p none
    rw [tailBytes, List.append_nil] at hstep
    exact rejected_line ((parseLine_set (some p.name)).trans hstep) s

/-- Settles O7: step 3 of the parser accepts numerals alone. -/
theorem badValueIsAnsweredInvalidInteger : Obligations.BadValueIsAnsweredInvalidInteger :=
  fun p V s hV => rejected_line ((parseLine_setLine p V).trans (parseStep3_invalid hV)) s

/-! ### What a command answers (R95, R99) -/

/-- The state `t` is `s` with one response appended to `TXQ` and nothing else written. -/
def Answers (s t : State) : Prop := ∃ r, OneResponse r ∧ t = emit r s

theorem answers_valueResponse (w v : Nat) (s : State) : Answers s (emit (valueResponse s.cfg w v) s) :=
  ⟨_, oneResponse_valueResponse s.cfg w v, rfl⟩

theorem answers_raiseError {s : State} (h : s.cfg.wf = true) (k : ErrorKind) : Answers s (raiseError k s) :=
  ⟨_, oneResponse_errorResponse (Config.wf_iff.mp h).2.2 k, rfl⟩

theorem answers_answerDisable {s : State} (h : s.cfg.wf = true) (m : Motor) : Answers s (answerDisable m s) := by
  unfold answerDisable
  split
  · exact answers_valueResponse 8 _ s
  · exact answers_raiseError h .notImplemented

theorem answers_get {s : State} (h : s.cfg.wf = true) : ∀ p : PropertyId, Answers s (commandEffect (.get p) s)
  | .m1Speed | .m2Speed => answers_valueResponse 8 _ s
  | .m1Disable => answers_answerDisable h .m1
  | .m2Disable => answers_answerDisable h .m2
  | .led1 | .led2 | .led3 | .led4 => answers_raiseError h .notImplemented
  | .m1Current | .m2Current => answers_valueResponse 16 _ s

/-- A disable answers nothing where there is a pin, and the error of R139 where there is none. -/
theorem silent_or_answers_disableOrReport {s : State} (h : s.cfg.wf = true) (m : Motor) (v : I8) :
    (disableOrReport m v s).txq = s.txq ∨ Answers s (disableOrReport m v s) := by
  cases hs : s.drive with
  | braking r =>
    rw [disableOrReport_of_braking hs]
    exact .inr (answers_raiseError h .notImplemented)
  | coasting r =>
    rw [disableOrReport_of_coasting hs]
    exact .inl (setDisable_txq m (truth v) s)

theorem silent_or_answers_set {s : State} (h : s.cfg.wf = true) (v : I8) : ∀ p : PropertyId,
    (commandEffect (.set p v) s).txq = s.txq ∨ Answers s (commandEffect (.set p v) s)
  | .m1Speed => .inl (setSpeed_txq .m1 v s)
  | .m2Speed => .inl (setSpeed_txq .m2 v s)
  | .m1Disable => silent_or_answers_disableOrReport h .m1 v
  | .m2Disable => silent_or_answers_disableOrReport h .m2 v
  | .led1 | .led2 | .led3 | .led4 => .inr (answers_raiseError h .notImplemented)
  | .m1Current | .m2Current => .inr (answers_raiseError h .unsupportedAction)

theorem silent_or_answers_commandEffect {s : State} (h : s.cfg.wf = true) (c : ParsedCommand) :
    (commandEffect c s).txq = s.txq ∨ Answers s (commandEffect c s) := by
  cases c with
  | get p => exact .inr (answers_get h p)
  | set p v => exact silent_or_answers_set h v p

/-- What is appended to `TXQ` is nothing or one response. -/
theorem txq_of_answers {s t : State} (h : t.txq = s.txq ∨ Answers s t) :
    ∃ r, t.txq = s.txq ++ r ∧ (r = [] ∨ OneResponse r) := by
  rcases h with h | ⟨r, hr, rfl⟩
  · exact ⟨[], by rw [h, List.append_nil], .inl rfl⟩
  · exact ⟨r, rfl, .inr hr⟩

/-- Settles O46: a command answers nothing or one response (`silent_or_answers_commandEffect`), and so does a line,
which is a command or an error. -/
theorem responsesEndWithTheOnlyCrLf : Obligations.ResponsesEndWithTheOnlyCrLf := by
  rintro s t hwf (⟨i, hi, h⟩ | ⟨L, h⟩)
  · obtain ⟨c, hc⟩ := commandOf_of_isCommand hi
    rw [exec_of_command hc] at h
    cases h
    exact txq_of_answers (silent_or_answers_commandEffect hwf c)
  · rcases interpret_cases L s with ⟨c, -, e⟩ | ⟨k, -, e⟩ <;> rw [e] at h <;> cases h
    · exact txq_of_answers (silent_or_answers_commandEffect hwf c)
    · exact txq_of_answers (.inr (answers_raiseError hwf k))

end Machine

end Sys2Proof
end

section
/-! PROOFS of the family 41_sampler: the two boot operations, the completion and the handler each by its guard (R110 to
R113), any number of conversions in a row (R114), and who writes the sampler at all (R115, R118). One conversion, a
completion and its handler, is one state update (`converted`); a run of them is an induction over the draws through
`conversions_cons_next_iff`. -/

namespace Sys2Proof.Machine

/-! ### Each sampler operation by its guard (R110 to R113) -/

section
variable {s : State}

theorem exec_bootConnect_allowed (h : connectAllowed s = true) :
    exec .bootConnect s = .next { s with irqEn := true } := if_pos h

theorem exec_bootConnect_refused (h : ¬ connectAllowed s = true) :
    exec .bootConnect s = .refused .bootConnect := if_neg h

theorem exec_bootArm_allowed (h : armAllowed s = true) :
    exec .bootArm s = .next { s with nextCh := .m1, adcSel := .m1, adcBusy := true, armed := true } := if_pos h

theorem exec_bootArm_refused (h : ¬ armAllowed s = true) : exec .bootArm s = .refused .bootArm := if_neg h

/-- The conversion in flight ends: its result is held and its completion is pending (R112). -/
def completed (a : U16) (s : State) : State := { s with adcResult := a, adcBusy := false, irqPending := true }

theorem exec_evAdcDone_taken {a : U16} (he : adcEnabled s = true) (hr : adcInRange s.cfg a = true) :
    exec (.evAdcDone a) s = .next (completed a s) := (if_pos he).trans (if_pos hr)

theorem exec_evAdcDone_refused {a : U16} (he : adcEnabled s = true) (hr : ¬ adcInRange s.cfg a = true) :
    exec (.evAdcDone a) s = .refused (.adcDraw a) := (if_pos he).trans (if_neg hr)

theorem exec_evAdcDone_noStep (a : U16) (he : ¬ adcEnabled s = true) :
    exec (.evAdcDone a) s = .fault (.noStep .adc) := if_neg he

theorem exec_isrConvComplete_taken (h : irqEnabled s = true) :
    exec .isrConvComplete s = .next (convComplete s) := if_pos h

theorem exec_isrConvComplete_noStep (h : ¬ irqEnabled s = true) :
    exec .isrConvComplete s = .fault (.noStep .isr) := if_neg h

/-- When the handler answers a next state, it ran. -/
theorem exec_isrConvComplete_next {t : State} (h : exec .isrConvComplete s = .next t) : t = convComplete s := by
  by_cases hi : irqEnabled s = true
  · exact (Host.Outcome.next.inj ((exec_isrConvComplete_taken hi).symm.trans h)).symm
  · cases (exec_isrConvComplete_noStep hi).symm.trans h

end

/-- The largest result is `2^ADC_BITS - 1` (R112). -/
theorem adcInRange_iff_le {c : Config} {a : U16} : adcInRange c a = true ↔ a.toNat ≤ 2 ^ c.adcBits - 1 :=
  adcInRange_iff.trans (Nat.le_sub_one_iff_lt (Nat.two_pow_pos _)).symm

/-- Settles O13: the guard of R110 decides. -/
theorem bootConnectConnectsOnce : Obligations.BootConnectConnectsOnce := fun _ =>
  ⟨fun h => exec_bootConnect_allowed (connectAllowed_iff.mpr h),
    fun h => exec_bootConnect_refused (mt connectAllowed_iff.mp h)⟩

/-- Settles O14: the guard of R111 decides. -/
theorem bootArmStartsTheFirstConversion : Obligations.BootArmStartsTheFirstConversion := fun _ =>
  ⟨fun h => exec_bootArm_allowed (armAllowed_iff.mpr h), fun h => exec_bootArm_refused (mt armAllowed_iff.mp h)⟩

/-- Settles O17: the enabling of R112 decides whether there is a step, then the range whether it is refused. -/
theorem adcCompletionRaisesTheNotification : Obligations.AdcCompletionRaisesTheNotification := by
  refine fun s a => ⟨fun ⟨hbusy, hpending, hle⟩ => ?_, fun ⟨hbusy, hpending, hlt⟩ => ?_, fun h => ?_⟩
  · exact exec_evAdcDone_taken (adcEnabled_iff.mpr ⟨hbusy, hpending⟩) (adcInRange_iff_le.mpr hle)
  · exact exec_evAdcDone_refused (adcEnabled_iff.mpr ⟨hbusy, hpending⟩)
      (mt adcInRange_iff_le.mp (Nat.not_le.mpr hlt))
  · exact exec_evAdcDone_noStep a (mt adcEnabled_iff.mp h)

/-- Settles O18: the handler's next state is `convComplete`, whose fields are known one by one. -/
theorem handlerStoresFlipsAndRetriggers : Obligations.HandlerStoresFlipsAndRetriggers := by
  refine fun s => ⟨fun h => ?_, fun h => exec_isrConvComplete_noStep (mt irqEnabled_iff.mp h)⟩
  exact ⟨convComplete s, exec_isrConvComplete_taken (irqEnabled_iff.mpr h), by simp, by simp, rfl, rfl, rfl, rfl, rfl⟩

/-! ### One conversion, and any number of them (R114) -/

/-- One conversion: its completion with the draw `a`, then the handler. -/
def converted (a : U16) (s : State) : State := convComplete (completed a s)

/-- A conversion runs when one is in flight, its draw is in range and the notification is connected; the rest of the draws
run from the state it leaves. -/
theorem conversions_cons_next_iff {a : U16} {l : List U16} {s t : State} :
    conversions (a :: l) s = .next t ↔
      (adcEnabled s = true ∧ adcInRange s.cfg a = true ∧ s.irqEn = true) ∧ conversions l (converted a s) = .next t := by
  by_cases he : adcEnabled s = true
  case neg => simp [conversions, exec_evAdcDone_noStep a he, he]
  by_cases hr : adcInRange s.cfg a = true
  case neg => simp [conversions, exec_evAdcDone_refused he hr, hr]
  by_cases hc : s.irqEn = true
  case neg =>
    have hidle : ¬ irqEnabled (completed a s) = true := mt (fun h => (irqEnabled_iff.mp h).2) hc
    simp [conversions, exec_evAdcDone_taken he hr, exec_isrConvComplete_noStep hidle, hc]
  have htaken : irqEnabled (completed a s) = true := irqEnabled_iff.mpr ⟨rfl, hc⟩
  simp [conversions, exec_evAdcDone_taken he hr, exec_isrConvComplete_taken htaken, he, hr, hc, converted]

/-- In a run, a conversion in flight has no completion pending, is of channel `NEXTCH`, and will be notified. -/
theorem RunInv.in_flight {s : State} (h : RunInv s) (hbusy : s.adcBusy = true) :
    s.irqPending = false ∧ s.adcSel = s.nextCh ∧ s.irqEn = true := by
  refine ⟨by simpa [hbusy] using h.one_conversion, h.channel (by simp [hbusy]), h.armed_connected ?_⟩
  simpa [hbusy] using h.armed_runs

/-- A conversion leaves the next one in flight, in a state of a run again. -/
theorem runInv_converted {s : State} (h : RunInv s) {a : U16} (hbusy : s.adcBusy = true)
    (hr : adcInRange s.cfg a = true) : RunInv (converted a s) := by
  obtain ⟨hpending, -, hconnected⟩ := h.in_flight hbusy
  have hcompleted : RunInv (completed a s) := runInv_adcDone h (adcEnabled_iff.mpr ⟨hbusy, hpending⟩) hr
  exact runInv_convComplete hcompleted (irqEnabled_iff.mpr ⟨rfl, hconnected⟩)

/-- One handler step flips the channel the rest begins with. -/
theorem channelAfter_succ (ch : Motor) (n : Nat) : channelAfter ch (n + 1) = channelAfter ch.other n := by
  rcases Nat.mod_two_eq_zero_or_one n with h | h
  · have hsucc : ¬ (n + 1) % 2 = 0 := by omega
    simp only [channelAfter, if_neg hsucc, if_pos h]
  · have hn : ¬ n % 2 = 0 := by omega
    have hsucc : (n + 1) % 2 = 0 := by omega
    simp only [channelAfter, if_pos hsucc, if_neg hn, Motor.other_other]

/-- Settles O19, by induction on the draws: each conversion stores one draw, flips the channel, and leaves a state of a run
with the next conversion in flight. -/
theorem channelsAlternateForever : Obligations.ChannelsAlternateForever := by
  intro draws
  induction draws with
  | nil =>
    intro s hinv hbusy _
    obtain ⟨hpending, hsel, -⟩ := hinv.in_flight hbusy
    exact ⟨s, rfl, rfl, rfl, hsel, hbusy, hpending, rfl, rfl⟩
  | cons a l ih =>
    intro s hinv hbusy hdraws
    obtain ⟨hpending, -, hconnected⟩ := hinv.in_flight hbusy
    have hr : adcInRange s.cfg a = true := adcInRange_iff.mpr (hdraws a List.mem_cons_self)
    obtain ⟨t, hrun, hsample, hch, hrest⟩ :=
      ih (converted a s) (runInv_converted hinv hbusy hr) rfl fun b hb => hdraws b (List.mem_cons_of_mem a hb)
    have hguards := And.intro (adcEnabled_iff.mpr ⟨hbusy, hpending⟩) (And.intro hr hconnected)
    refine ⟨t, conversions_cons_next_iff.mpr ⟨hguards, hrun⟩, hsample, ?_, hrest⟩
    rw [hch, List.length_cons, channelAfter_succ]
    rfl

/-! ### The sampler reads nothing but itself (R69, R118) -/

theorem adcEnabled_congr {s u : State} (h : s.samplerPart = u.samplerPart) : adcEnabled s = adcEnabled u :=
  congrArg (fun p : SamplerPart => p.adcBusy && !p.irqPending) h

theorem adcInRange_congr {c d : Config} (h : c.adcBits = d.adcBits) (a : U16) : adcInRange c a = adcInRange d a := by
  rw [adcInRange, adcInRange, h]

/-- What a conversion makes of the sampler's own state. -/
theorem converted_samplerPart (a : U16) (s : State) :
    (converted a s).samplerPart =
      { s.samplerPart with
        sample := s.samplerPart.sample.set s.samplerPart.nextCh a
        nextCh := s.samplerPart.nextCh.other, adcSel := s.samplerPart.nextCh.other
        adcBusy := true, adcResult := a, irqPending := false } := rfl

theorem converted_samplerPart_congr {s u : State} (h : s.samplerPart = u.samplerPart) (a : U16) :
    (converted a s).samplerPart = (converted a u).samplerPart := by
  rw [converted_samplerPart, converted_samplerPart, h]

/-- Settles O54, by induction on the draws: the guards and the effect of a conversion are functions of the sampler's part
and the resolution. -/
theorem samplerRunsIndependentlyOfTheForeground : Obligations.SamplerRunsIndependentlyOfTheForeground := by
  intro draws
  induction draws with
  | nil =>
    intro s u t hpart _ hrun
    cases hrun
    exact ⟨u, rfl, hpart.symm⟩
  | cons a l ih =>
    intro s u t hpart hbits hrun
    obtain ⟨⟨he, hr, hconnected⟩, hrest⟩ := conversions_cons_next_iff.mp hrun
    rw [adcEnabled_congr hpart] at he
    rw [adcInRange_congr hbits] at hr
    have hconnected' : u.irqEn = true := (congrArg SamplerPart.irqEn hpart).symm.trans hconnected
    obtain ⟨v, hv, hpartv⟩ := ih _ (converted a u) t (converted_samplerPart_congr hpart a) hbits hrest
    exact ⟨v, conversions_cons_next_iff.mpr ⟨⟨he, hr, hconnected'⟩, hv⟩, hpartv⟩

/-! ### No step of FG writes the sampler (R118) -/

@[simp] theorem commandEffect_samplerPart (c : ParsedCommand) (s : State) :
    (commandEffect c s).samplerPart = s.samplerPart := by
  rw [commandEffect_eq]
  rfl

@[simp] theorem acceptByte_samplerPart (b : Byte) (s : State) : (acceptByte b s).samplerPart = s.samplerPart := by
  simp [State.samplerPart]

/-- Settles O51: a received byte is taken, and the line is filled, emptied, answered or run as a command. -/
theorem foregroundNeverTouchesTheSampler : Obligations.ForegroundNeverTouchesTheSampler := by
  intro s t b h
  obtain ⟨-, rfl | rfl | ⟨c, rfl⟩ | ⟨k, rfl⟩ | ⟨-, rfl⟩⟩ := exec_evRxByte_next h
  · rfl
  · rfl
  · exact commandEffect_samplerPart c (popIn s)
  · rfl
  · exact acceptByte_samplerPart b (popIn s)

/-! ### What each event writes (R25 to R29, R115) -/

/-- Settles O50: each of the six events writes the fields its own rule names (`exec_event_next`). -/
theorem eventsLeaveTheRestUnchanged : Obligations.EventsLeaveTheRestUnchanged := by
  intro i s t hi hn h
  rcases exec_event_next hi hn h with ⟨a, rfl, -, -, rfl⟩ | ⟨rfl, -, rfl⟩ | ⟨rfl, -, rfl⟩ | ⟨rfl, -, rfl⟩ |
    ⟨m, e, rfl, -, rfl⟩ | ⟨rfl, -, rfl⟩
  all_goals simp

/-- Of the events, FG's included, the handler alone writes a sample. -/
theorem event_keeps_sample {i : Instr} {s t : State} (hi : i.isCommand = false) (hne : i ≠ .isrConvComplete)
    (h : exec i s = .next t) : t.sample = s.sample := by
  by_cases hb : ∃ b, i = .evRxByte b
  · obtain ⟨b, rfl⟩ := hb
    exact congrArg SamplerPart.sample (foregroundNeverTouchesTheSampler s t b h)
  · obtain ⟨-, -, -, -, -, -, -, -, -, -, -, hsample, -⟩ := eventsLeaveTheRestUnchanged i s t hi (not_exists.mp hb) h
    exact hsample hne

/-- Only ISR's turn fetches the handler. -/
theorem fetch_eq_isrConvComplete {turn : Turn} {s : State} (h : fetch turn s = some .isrConvComplete) :
    turn = .isr := by
  cases turn with
  | isr => rfl
  | fg => simp [fetch] at h
  | boot =>
    obtain ⟨op, -, hop⟩ := Option.map_eq_some_iff.mp h
    cases op <;> cases hop
  | adc | send | take | powerOn => cases h

theorem worldTurn_sample {turn : Turn} (h : turn ≠ .powerOn) (s : State) : (worldTurn turn s).sample = s.sample := by
  cases turn with
  | powerOn => exact absurd rfl h
  | _ => rfl

/-- A turn other than a power-on keeps both samples, or it is ISR's and runs the handler. -/
theorem runTurn_sample {turn : Turn} {s t : State} (hturn : turn ≠ .powerOn) (h : runTurn turn s = .next t) :
    t.sample = s.sample ∨ (turn = .isr ∧ t = convComplete s) := by
  rcases runTurn_next h with ⟨-, rfl⟩ | ⟨i, hf, he⟩ | ⟨i, _, -, -, rfl⟩ | ⟨i, r, -, -, rfl⟩
  · exact .inl (worldTurn_sample hturn s)
  · by_cases hi : i = .isrConvComplete
    · subst hi
      obtain rfl := fetch_eq_isrConvComplete hf
      exact .inr ⟨rfl, exec_isrConvComplete_next he⟩
    · exact .inl ((event_keeps_sample (fetch_isEvent hf) hi he).trans (takeTurn_sample turn s))
  · exact .inl (takeTurn_sample turn s)
  · exact .inl (takeTurn_sample turn s)

/-- Settles O20: what the turn at the head of the schedule does to the samples. -/
theorem onlyTheHandlerWritesOneSample : Obligations.OnlyTheHandlerWritesOneSample := by
  intro s t h
  cases hs : s.sched with
  | nil =>
    rw [step_nil hs] at h
    cases h
    exact .inl rfl
  | cons turn rest =>
    by_cases hturn : turn = .powerOn
    · exact .inr (.inr ⟨rest, by rw [hturn]⟩)
    · rw [step_cons hs] at h
      rcases runTurn_sample hturn h with hkept | ⟨rfl, rfl⟩
      · exact .inl hkept
      · exact .inr (.inl ⟨⟨rest, rfl⟩, by simp, by simp⟩)

end Sys2Proof.Machine
end

section
/-! PROOFS of the family 42_motor_driver: the codes of a speed (R131), what a setter does to the registers, and the mode
the registers select (R145). That the drive code holds the whole speed is said once (`speedOfCode_driveCode`), and so is
the drive a speed selects under each strategy (`brakingMode_brakingSpeed`, `coastingMode_coastingSpeed`). -/

namespace Sys2Proof

@[simp] theorem PerMotor.set_get {α : Type} (x : PerMotor α) (m : Motor) : x.set m (x.get m) = x := by
  cases m <;> rfl

namespace Machine

/-! ### The codes of a speed (R131) -/

/-- An `i8` is between -128 and 127, so neither code leaves the byte (R8). -/
theorem speed_bounds (v : I8) : -128 ≤ v.toInt ∧ v.toInt ≤ 127 :=
  ⟨BitVec.le_toInt v, Int.le_sub_one_of_lt (BitVec.toInt_lt (x := v))⟩

theorem toNat_ofInt_byte {k : Int} (h0 : 0 ≤ k) (h255 : k ≤ 255) : ((BitVec.ofInt 8 k).toNat : Int) = k := by
  rw [BitVec.toNat_ofInt]
  omega

theorem fwdCode_toNat (v : I8) : ((fwdCode v).toNat : Int) = if 0 < v.toInt then 2 * v.toInt else 0 := by
  obtain ⟨-, hmax⟩ := speed_bounds v
  unfold fwdCode
  split
  · exact toNat_ofInt_byte (by omega) (by omega)
  · rfl

theorem revCode_toNat (v : I8) : ((revCode v).toNat : Int) = if v.toInt < 0 then 2 * (-v.toInt) - 1 else 0 := by
  obtain ⟨hmin, -⟩ := speed_bounds v
  unfold revCode
  split
  · exact toNat_ofInt_byte (by omega) (by omega)
  · rfl

theorem fwdCode_of_not_pos {v : I8} (h : ¬ 0 < v.toInt) : fwdCode v = 0 := if_neg h

theorem revCode_of_not_neg {v : I8} (h : ¬ v.toInt < 0) : revCode v = 0 := if_neg h

/-- A code of zero is never the larger one, so the drive code is the other. -/
theorem driveCode_of_revCode_eq_zero {v : I8} (h : revCode v = 0) : driveCode v = fwdCode v := by
  rw [driveCode, h]
  exact if_neg (Nat.not_lt_zero _)

theorem driveCode_of_fwdCode_eq_zero {v : I8} (h : fwdCode v = 0) : driveCode v = revCode v := by
  rw [driveCode, h]
  split
  · rfl
  next hrev => exact (BitVec.eq_of_toNat_eq (Nat.eq_zero_of_not_pos hrev)).symm

theorem driveCode_toNat_eq_add (v : I8) : (driveCode v).toNat = (fwdCode v).toNat + (revCode v).toNat := by
  rcases fwdCode_zero_or_revCode_zero v with h | h
  · rw [driveCode_of_fwdCode_eq_zero h, h]
    exact (Nat.zero_add _).symm
  · rw [driveCode_of_revCode_eq_zero h, h]
    rfl

/-- The speed a drive code stands for (R135). -/
def speedOfCode (d : Byte) : Int :=
  if d.toNat = 0 then 0 else if d.toNat % 2 = 0 then (d.toNat : Int) / 2 else -(((d.toNat : Int) + 1) / 2)

/-- The drive code holds the whole speed: its parity is the sign, its half the magnitude. -/
theorem speedOfCode_driveCode (v : I8) : speedOfCode (driveCode v) = v.toInt := by
  have hadd := driveCode_toNat_eq_add v
  have hfwd := fwdCode_toNat v
  have hrev := revCode_toNat v
  unfold speedOfCode
  rcases Int.lt_trichotomy v.toInt 0 with hneg | hzero | hpos
  · rw [if_neg (by omega)] at hfwd
    rw [if_pos hneg] at hrev
    rw [if_neg (by omega), if_neg (by omega)]
    omega
  · rw [if_neg (by omega)] at hfwd hrev
    rw [if_pos (by omega), hzero]
  · rw [if_pos hpos] at hfwd
    rw [if_neg (by omega)] at hrev
    rw [if_neg (by omega), if_pos (by omega)]
    omega

theorem driveCode_injective {v w : I8} (h : driveCode v = driveCode w) : v = w := by
  apply BitVec.eq_of_toInt_eq
  rw [← speedOfCode_driveCode v, h, speedOfCode_driveCode w]

theorem driveCode_ne_zero {v : I8} (h : v.toInt ≠ 0) : driveCode v ≠ 0 := by
  intro h0
  have hspeed := speedOfCode_driveCode v
  rw [h0] at hspeed
  exact h hspeed.symm

/-- Settles O36: the two codes are read off their definitions, and the speed off the drive code. -/
theorem speedMappingIsTheAsymmetricScaling : Obligations.SpeedMappingIsTheAsymmetricScaling := by
  refine ⟨fun v => ⟨fwdCode_toNat v, revCode_toNat v, driveCode_toNat_eq_add v, fwdCode_zero_or_revCode_zero v,
    fun hne => ?_, fun hne => ?_⟩, fun _ _ => driveCode_injective⟩
  · have hpos : 0 < v.toInt := Decidable.not_imp_comm.mp fwdCode_of_not_pos hne
    have hfwd := fwdCode_toNat v
    obtain ⟨-, hmax⟩ := speed_bounds v
    rw [if_pos hpos] at hfwd
    omega
  · have hneg : v.toInt < 0 := Decidable.not_imp_comm.mp revCode_of_not_neg hne
    have hrev := revCode_toNat v
    rw [if_pos hneg] at hrev
    omega

/-! ### The stored form of a code (R133) -/

@[simp] theorem decDuty_encDuty (coastInvert : Bool) (d : Byte) : decDuty coastInvert (encDuty coastInvert d) = d := by
  cases coastInvert with
  | false => rfl
  | true =>
    have hself : 255 - (255 - d) = d := by bv_omega
    exact hself

theorem decDuty_toNat (coastInvert : Bool) (e : Byte) :
    ((decDuty coastInvert e).toNat : Int) = if coastInvert then 255 - (e.toNat : Int) else (e.toNat : Int) := by
  cases coastInvert with
  | false => rfl
  | true =>
    have hsub : (decDuty true e).toNat = (255 - e).toNat := rfl
    rw [hsub, if_pos rfl]
    bv_omega

/-! ### The sets by their motor (R222 to R225) -/

section
variable {s t : State} {m : Motor} {v : I8} {i : Instr}

theorem exec_set_speed (h : m = .m1 ∧ i = .setM1speed v ∨ m = .m2 ∧ i = .setM2speed v) (s : State) :
    exec i s = .next (setSpeed m v s) := by
  rcases h with ⟨rfl, rfl⟩ | ⟨rfl, rfl⟩
  · rfl
  · rfl

theorem exec_set_speed_next (h : m = .m1 ∧ i = .setM1speed v ∨ m = .m2 ∧ i = .setM2speed v)
    (hexec : exec i s = .next t) : t = setSpeed m v s :=
  Host.Outcome.next.inj (hexec.symm.trans (exec_set_speed h s))

theorem exec_set_disable (h : m = .m1 ∧ i = .setM1disable v ∨ m = .m2 ∧ i = .setM2disable v) (s : State) :
    exec i s = .next (disableOrReport m v s) := by
  rcases h with ⟨rfl, rfl⟩ | ⟨rfl, rfl⟩
  · rfl
  · rfl

/-- Under `CoastingPWM` a disable set drives the pin. -/
theorem exec_set_disable_next {r : PerMotor CoastingRegs}
    (h : m = .m1 ∧ i = .setM1disable v ∨ m = .m2 ∧ i = .setM2disable v) (hd : s.drive = .coasting r)
    (hexec : exec i s = .next t) : t = setDisable m (truth v) s := by
  rw [exec_set_disable h, disableOrReport_of_coasting hd] at hexec
  exact (Host.Outcome.next.inj hexec).symm

end

/-! ### The readback (R140, R142) -/

theorem getSpeed_of_braking {s : State} {r : PerMotor BrakingRegs} (h : s.drive = .braking r) (m : Motor) :
    getSpeed m s = (r.get m).dutyF ||| (r.get m).dutyR := by
  simp only [getSpeed, h]

theorem getSpeed_of_coasting {s : State} {r : PerMotor CoastingRegs} (h : s.drive = .coasting r) (m : Motor) :
    getSpeed m s = (r.get m).dutyE := by
  simp only [getSpeed, h]

/-- One of the two duties is zero, so their union is the drive code, whichever pin it is on. -/
theorem brakingSpeed_union (sign : SignConv) (v : I8) :
    (brakingSpeed sign v).dutyF ||| (brakingSpeed sign v).dutyR = driveCode v := by
  have hunion : fwdCode v ||| revCode v = driveCode v := by
    rcases fwdCode_zero_or_revCode_zero v with h | h
    · rw [driveCode_of_fwdCode_eq_zero h, h]
      exact BitVec.zero_or
    · rw [driveCode_of_revCode_eq_zero h, h]
      exact BitVec.or_zero
  cases sign with
  | normal => exact hunion
  | inverted => exact (BitVec.or_comm _ _).trans hunion

/-- The drive code a readback stands for: the readback itself, decoded under `CoastingPWM` (R135). -/
def readbackCode (coastInvert : Bool) (m : Motor) (t : State) : Byte :=
  match t.drive with
  | .braking _ => getSpeed m t
  | .coasting _ => decDuty coastInvert (getSpeed m t)

theorem readbackCode_setSpeed (m : Motor) (v : I8) (s : State) :
    readbackCode s.cfg.coastInvert m (setSpeed m v s) = driveCode v := by
  cases hd : s.drive with
  | braking r =>
    rw [setSpeed_of_braking hd, readbackCode, getSpeed_of_braking rfl, PerMotor.get_set_self, brakingSpeed_union]
  | coasting r =>
    rw [setSpeed_of_coasting hd, readbackCode, getSpeed_of_coasting rfl, PerMotor.get_set_self]
    exact decDuty_encDuty _ _

/-- Settles O37: the readback is the drive code, and the drive code holds the speed. -/
theorem speedIsRecoveredFromTheReadback : Obligations.SpeedIsRecoveredFromTheReadback := by
  intro s t m v i d hi hexec hd
  obtain rfl := exec_set_speed_next hi hexec
  have hcode : d = driveCode v := hd.trans (readbackCode_setSpeed m v s)
  rw [hcode]
  exact (speedOfCode_driveCode v).symm

/-! ### The mode selector (R145) -/

section
variable {s : State} {m : Motor}

theorem mode_of_braking {r : PerMotor BrakingRegs} (hd : s.drive = .braking r) (hen : s.en.get m = true) :
    mode m s = brakingMode true (r.get m) := by
  simp only [mode, hd, hen]

theorem mode_of_coasting {r : PerMotor CoastingRegs} (hd : s.drive = .coasting r) (hen : s.en.get m = true) :
    mode m s = coastingMode s.cfg.coastInvert true (r.get m) := by
  simp only [mode, hd, hen]

end

/-- The selector asks whether a duty is positive; R145 speaks of a duty that is not zero. -/
theorem duty_pos_iff {d : Byte} : 0 < d.toNat ↔ d ≠ 0 := BitVec.pos_iff_ne_zero d

theorem brakingMode_fwd {r : BrakingRegs} (h : r.dutyF ≠ 0) : brakingMode true r = .drive .physFwd r.dutyF .brake :=
  if_pos (duty_pos_iff.mpr h)

theorem brakingMode_of_dutyF_eq_zero {r : BrakingRegs} (h : r.dutyF = 0) :
    brakingMode true r = if 0 < r.dutyR.toNat then .drive .physRev r.dutyR .brake else .brake :=
  if_neg (mt duty_pos_iff.mp (not_not_intro h))

theorem brakingMode_rev {r : BrakingRegs} (hf : r.dutyF = 0) (hr : r.dutyR ≠ 0) :
    brakingMode true r = .drive .physRev r.dutyR .brake :=
  (brakingMode_of_dutyF_eq_zero hf).trans (if_pos (duty_pos_iff.mpr hr))

theorem brakingMode_brake {r : BrakingRegs} (hf : r.dutyF = 0) (hr : r.dutyR = 0) : brakingMode true r = .brake :=
  (brakingMode_of_dutyF_eq_zero hf).trans (if_neg (mt duty_pos_iff.mp (not_not_intro hr)))

section
variable {coastInvert : Bool} {r : CoastingRegs}

theorem coastingMode_hiz (h : r.hiz = true) : coastingMode coastInvert true r = .hiz := if_pos h

theorem coastingMode_of_not_hiz (h : r.hiz = false) : coastingMode coastInvert true r =
    if decDuty coastInvert r.dutyE = 0 then .coast
    else .drive (if r.dirf then .physFwd else .physRev) (decDuty coastInvert r.dutyE) .coast :=
  if_neg (Bool.eq_false_iff.mp h)

theorem coastingMode_coast (hz : r.hiz = false) (h : decDuty coastInvert r.dutyE = 0) :
    coastingMode coastInvert true r = .coast :=
  (coastingMode_of_not_hiz hz).trans (if_pos h)

theorem coastingMode_drive (hz : r.hiz = false) (h : decDuty coastInvert r.dutyE ≠ 0) :
    coastingMode coastInvert true r =
      .drive (if r.dirf then .physFwd else .physRev) (decDuty coastInvert r.dutyE) .coast :=
  (coastingMode_of_not_hiz hz).trans (if_neg h)

end

/-- Settles O39: the selector's branches, with the decoded code known by its value. -/
theorem modeIsSelectedByTheRegisters : Obligations.ModeIsSelectedByTheRegisters := by
  refine fun s m => ⟨mode_of_disabled, fun r hd hen => ?_, fun r hd hen => ?_⟩
  · rw [mode_of_braking hd hen]
    exact ⟨brakingMode_fwd, brakingMode_rev, brakingMode_brake⟩
  · rw [mode_of_coasting hd hen]
    refine ⟨coastingMode_hiz, fun d hcode => ?_⟩
    obtain rfl : decDuty s.cfg.coastInvert (r.get m).dutyE = d :=
      BitVec.eq_of_toNat_eq (Int.ofNat_inj.mp ((decDuty_toNat _ _).trans hcode.symm))
    exact ⟨coastingMode_coast, coastingMode_drive⟩

/-! ### The drive a speed selects (R131 to R134) -/

/-- The physical direction of a non-zero speed: forward when its sign agrees with a `Normal` convention. -/
def speedDirection (sign : SignConv) (v : I8) : Direction :=
  if 0 < v.toInt ↔ sign = .normal then .physFwd else .physRev

theorem speedDirection_eq_physFwd (sign : SignConv) (v : I8) :
    speedDirection sign v = .physFwd ↔ (0 < v.toInt ↔ sign = .normal) := by
  unfold speedDirection
  split <;> simp [*]

/-- The direction pins after a non-zero speed, whatever they were. -/
theorem direction_eq_speedDirection {v : I8} (hv : v.toInt ≠ 0) (sign : SignConv) (dirf : Bool) :
    (if direction sign v dirf then Direction.physFwd else .physRev) = speedDirection sign v := by
  rcases Int.lt_or_gt_of_ne hv with hneg | hpos
  · have hnot : ¬ 0 < v.toInt := by omega
    cases sign <;> simp [direction, speedDirection, hneg, hnot]
  · cases sign <;> simp [direction, speedDirection, hpos]

/-- The code is on the pin of the speed's direction, and the other pin is at zero. -/
theorem brakingMode_brakingSpeed {v : I8} (hv : v.toInt ≠ 0) (sign : SignConv) :
    brakingMode true (brakingSpeed sign v) = .drive (speedDirection sign v) (driveCode v) .brake := by
  have hcode := driveCode_ne_zero hv
  rcases Int.lt_or_gt_of_ne hv with hneg | hpos
  · have hnot : ¬ 0 < v.toInt := by omega
    have hfwd := fwdCode_of_not_pos hnot
    rw [driveCode_of_fwdCode_eq_zero hfwd] at hcode ⊢
    cases sign with
    | normal => rw [brakingMode_rev hfwd hcode]; simp [brakingSpeed, speedDirection, hnot]
    | inverted => rw [brakingMode_fwd hcode]; simp [brakingSpeed, speedDirection, hnot]
  · have hrev := revCode_of_not_neg (v := v) (by omega)
    rw [driveCode_of_revCode_eq_zero hrev] at hcode ⊢
    cases sign with
    | normal => rw [brakingMode_fwd hcode]; simp [brakingSpeed, speedDirection, hpos]
    | inverted => rw [brakingMode_rev hrev hcode]; simp [brakingSpeed, speedDirection, hpos]

theorem coastingMode_coastingSpeed {v : I8} (hv : v.toInt ≠ 0) (coastInvert : Bool) (sign : SignConv)
    {r : CoastingRegs} (hz : r.hiz = false) :
    coastingMode coastInvert true (coastingSpeed coastInvert sign v r) =
      .drive (speedDirection sign v) (driveCode v) .coast := by
  have hdec : decDuty coastInvert (coastingSpeed coastInvert sign v r).dutyE = driveCode v := decDuty_encDuty _ _
  rw [coastingMode_drive (r := coastingSpeed coastInvert sign v r) hz (hdec ▸ driveCode_ne_zero hv), hdec,
    ← direction_eq_speedDirection hv sign r.dirf]
  rfl

/-- An enabled motor's mode after a speed is the mode of the registers the speed leaves. -/
theorem mode_setSpeed_of_braking {s : State} {m : Motor} {r : PerMotor BrakingRegs} (hd : s.drive = .braking r)
    (hen : s.en.get m = true) (v : I8) :
    mode m (setSpeed m v s) = brakingMode true (brakingSpeed (s.cfg.sign.get m) v) := by
  rw [setSpeed_of_braking hd, mode_of_braking (s := { s with drive := .braking _ }) rfl hen, PerMotor.get_set_self]

theorem mode_setSpeed_of_coasting {s : State} {m : Motor} {r : PerMotor CoastingRegs} (hd : s.drive = .coasting r)
    (hen : s.en.get m = true) (v : I8) :
    mode m (setSpeed m v s) = coastingMode s.cfg.coastInvert true
      (coastingSpeed s.cfg.coastInvert (s.cfg.sign.get m) v (r.get m)) := by
  rw [setSpeed_of_coasting hd, mode_of_coasting (s := { s with drive := .coasting _ }) rfl hen, PerMotor.get_set_self]

/-- Settles O40: the mode of the registers a non-zero speed leaves, by strategy and Hi-Z. -/
theorem setSpeedSelectsTheDrive : Obligations.SetSpeedSelectsTheDrive := by
  intro s t m v i hi hen hexec hv
  obtain rfl := exec_set_speed_next hi hexec
  refine ⟨speedDirection (s.cfg.sign.get m) v, speedDirection_eq_physFwd _ _, fun r hd => ?_, fun r hd hz => ?_,
    fun r hd hz => ?_⟩
  · exact (mode_setSpeed_of_braking hd hen v).trans (brakingMode_brakingSpeed hv _)
  · exact (mode_setSpeed_of_coasting hd hen v).trans (coastingMode_coastingSpeed hv _ _ hz)
  · exact (mode_setSpeed_of_coasting hd hen v).trans (coastingMode_hiz hz)

/-! ### The enable (R136, R137) -/

@[simp] theorem setEnable_setEnable (m : Motor) (d e : Bool) (s : State) :
    setEnable m e (setEnable m d s) = setEnable m e s := by
  simp only [setEnable, PerMotor.set_set]

/-- The enable and the registers are written independently of each other. -/
theorem setEnable_setSpeed (m k : Motor) (e : Bool) (v : I8) (s : State) :
    setEnable m e (setSpeed k v s) = setSpeed k v (setEnable m e s) := by
  cases hd : s.drive with
  | braking r => rw [setSpeed_of_braking hd, setSpeed_of_braking (s := setEnable m e s) hd]; rfl
  | coasting r => rw [setSpeed_of_coasting hd, setSpeed_of_coasting (s := setEnable m e s) hd]; rfl

theorem setEnable_setDisable (m k : Motor) (e b : Bool) (s : State) :
    setEnable m e (setDisable k b s) = setDisable k b (setEnable m e s) := by
  cases hd : s.drive with
  | braking r => rw [setDisable_of_braking hd, setDisable_of_braking (s := setEnable m e s) hd]
  | coasting r => rw [setDisable_of_coasting hd, setDisable_of_coasting (s := setEnable m e s) hd]; rfl

/-- Settles O41: a set commutes with the enable, so enabling afterwards leaves the same state as enabling before. -/
theorem settingsMadeAsleepActOnEnable : Obligations.SettingsMadeAsleepActOnEnable := by
  refine fun s m k v b => ⟨mode_of_disabled (by simp), ?_, ?_⟩
  · rw [setEnable_setSpeed, setEnable_setEnable]
  · rw [setEnable_setDisable, setEnable_setEnable]

/-- Settles O15: before boot is done the operation is `setEnable`, afterwards it is refused. -/
theorem bootEnableWritesOneEnable : Obligations.BootEnableWritesOneEnable := by
  refine fun s m e => ⟨fun h => ?_, fun h => ?_⟩
  · have hexec : exec (.bootEnable m e) s = .next (setEnable m e s) := if_pos (enableAllowed_iff.mpr h)
    exact ⟨setEnable m e s, hexec, by simp, by simp, rfl⟩
  · exact if_neg (mt enableAllowed_iff.mp (by simp [h]))

/-! ### The disable pin (R138, R139, R143) -/

theorem exists_drive_eq_braking {s : State} (h : s.strategy = .brakingPWM) : ∃ r, s.drive = .braking r := by
  cases hd : s.drive with
  | braking r => exact ⟨r, rfl⟩
  | coasting r => simp [State.strategy, hd] at h

theorem getDisable_of_braking {s : State} {r : PerMotor BrakingRegs} (h : s.drive = .braking r) (m : Motor) :
    getDisable m s = none := by
  simp only [getDisable, h]

theorem answerDisable_of_braking {s : State} {r : PerMotor BrakingRegs} (h : s.drive = .braking r) (m : Motor) :
    answerDisable m s = raiseError .notImplemented s := by
  simp only [answerDisable, getDisable_of_braking h]

/-- Settles O35: the setters keep `TXQ`, and without a disable pin all four forms raise `NotImplemented`. -/
theorem motorDriverRaisesNothingItself : Obligations.MotorDriverRaisesNothingItself := by
  refine fun s m v b tl => ⟨by simp, by simp, by simp, fun hst => ?_⟩
  obtain ⟨r, hd⟩ := exists_drive_eq_braking hst
  refine ⟨setDisable_of_braking hd m b, getDisable_of_braking hd m, fun i hi => ?_⟩
  simp only [List.mem_cons, List.not_mem_nil, or_false] at hi
  rcases hi with rfl | rfl | rfl | rfl
  · exact congrArg Host.Outcome.next (answerDisable_of_braking hd .m1)
  · exact congrArg Host.Outcome.next (answerDisable_of_braking hd .m2)
  · exact congrArg Host.Outcome.next (disableOrReport_of_braking hd .m1 v)
  · exact congrArg Host.Outcome.next (disableOrReport_of_braking hd .m2 v)

/-- A pin driven and released is as if it had never been driven. -/
theorem setDisable_release {s : State} {m : Motor} {r : PerMotor CoastingRegs} (hd : s.drive = .coasting r)
    (hz : (r.get m).hiz = false) (b : Bool) : setDisable m false (setDisable m b s) = s := by
  have hregs : { r.get m with hiz := false } = r.get m := by rw [← hz]
  rw [setDisable_of_coasting hd, setDisable_of_coasting rfl, PerMotor.get_set_self, PerMotor.set_set, hregs,
    PerMotor.set_get, ← hd]

/-- Settles O42: the driven pin selects Hi-Z, and its release gives back the whole state. -/
theorem releasedPinReturnsTheDrive : Obligations.ReleasedPinReturnsTheDrive := by
  intro s t u m v i j r hij hd hz hen hv ht hu
  have hi : m = .m1 ∧ i = .setM1disable v ∨ m = .m2 ∧ i = .setM2disable v :=
    hij.imp (fun ⟨hm, hi, _⟩ => ⟨hm, hi⟩) fun ⟨hm, hi, _⟩ => ⟨hm, hi⟩
  have hj : m = .m1 ∧ j = .setM1disable 0 ∨ m = .m2 ∧ j = .setM2disable 0 :=
    hij.imp (fun ⟨hm, _, hj⟩ => ⟨hm, hj⟩) fun ⟨hm, _, hj⟩ => ⟨hm, hj⟩
  obtain rfl := exec_set_disable_next hi hd ht
  have hdriven := congrArg State.drive (setDisable_of_coasting hd m (truth v))
  have hback : u = s := (exec_set_disable_next hj hdriven hu).trans (setDisable_release hd hz _)
  refine ⟨?_, by rw [hback], hback⟩
  rw [mode_of_coasting hdriven (by simpa using hen), PerMotor.get_set_self]
  exact coastingMode_hiz (decide_eq_true hv)

/-! ### The on-part of a period (R146) -/

/-- A stored value below 255 is a drive at its complement. -/
theorem onFraction_of_stored {s : State} {m : Motor} {r : PerMotor CoastingRegs} (hd : s.drive = .coasting r)
    (hinvert : s.cfg.coastInvert = true) (hen : s.en.get m = true) (hz : (r.get m).hiz = false)
    (hlt : (r.get m).dutyE.toNat < 255) (f : Byte → Rat) :
    (mode m s).onFraction f = f (255 - (r.get m).dutyE) := by
  have hne : decDuty true (r.get m).dutyE ≠ 0 := by
    rw [← duty_pos_iff]
    have hcode := decDuty_toNat true (r.get m).dutyE
    rw [if_pos rfl] at hcode
    omega
  rw [mode_of_coasting hd hen, hinvert, coastingMode_drive hz hne]
  rfl

/-- Settles O43: the smaller stored value has the larger complement. -/
theorem smallerStoredValueDrivesLonger : Obligations.SmallerStoredValueDrivesLonger := by
  intro f hf s t m r q hs ht hsi hti hse hte hsz htz hle hlt
  rw [onFraction_of_stored hs hsi hse hsz (by omega), onFraction_of_stored ht hti hte htz hlt]
  have hr : (255 - (r.get m).dutyE).toNat = 255 - (r.get m).dutyE.toNat := by bv_omega
  have hq : (255 - (q.get m).dutyE).toNat = 255 - (q.get m).dutyE.toNat := by bv_omega
  exact hf _ _ (by omega) (by omega)

end Machine

end Sys2Proof
end

section
/-! PROOFS of the family 43_line_input: what FG does with the byte at the head of `IN` (R160 to R166), the turns of the
world (R167), and runs of FG's turns. Any bytes that end no line append those of them that are accepted (`accepted`,
`appendLine`, `run_fgTurns`); the terminator after a command's line then runs the command (`step_terminator_decoded`),
whose effect does not depend on the line buffer (`commandEffect_withLine`). -/

namespace Sys2Proof

/-- A line that decodes is one the parser accepts, and its instruction is the parsed command's form (R86). -/
theorem parseLine_of_decode {L : List Byte} {i : Instr} (h : decode L = .ok i) :
    ∃ c, parseLine L = .ok c ∧ Machine.commandOf i = some c := by
  cases hp : parseLine L with
  | error k => exact absurd h (decode_ne_ok_of_error hp i)
  | ok c =>
    obtain rfl := Except.ok.inj ((decode_of_ok hp).symm.trans h)
    refine ⟨c, rfl, ?_⟩
    cases c with
    | get p => cases p <;> rfl
    | set p v => cases p <;> rfl

namespace Machine

/-! ### The turns that run no instruction (R167, R280) -/

/-- A turn that fetches nothing does the world's act. -/
theorem step_of_world {s : State} {turn : Turn} {rest : List Turn} (hs : s.sched = turn :: rest)
    (hf : fetch turn s = none) : step s = .next (worldTurn turn { s with sched := rest }) := by
  rw [step_cons hs, runTurn_of_world (by rw [fetch_with_sched, hf])]

theorem step_fg_idle {s : State} {rest : List Turn} (hs : s.sched = .fg :: rest) (hq : s.inq = []) :
    step s = .next { s with sched := rest } :=
  step_of_world hs (by simp [fetch, hq])

/-- Settles O10: each of these turns fetches no instruction, so its step is `worldTurn`. -/
theorem worldTurnsDoOnlyTheirAct : Obligations.WorldTurnsDoOnlyTheirAct := by
  refine fun s rest b => ⟨fun hs => step_of_world hs rfl, fun hs => ?_, fun hs => step_of_world hs rfl,
    step_fg_idle, fun hs hq => step_of_world hs (by simp [fetch, hq]), step_nil⟩
  rw [List.drop_one]
  exact step_of_world hs rfl

/-! ### The classes of a byte (R160, R163) -/

theorem terminator_iff_toNat {b : Byte} : b = Ascii.cr ∨ b = Ascii.lf ↔ b.toNat = 0x0D ∨ b.toNat = 0x0A := by
  rw [← BitVec.toNat_inj, ← BitVec.toNat_inj]
  rfl

theorem isPrintable_iff {b : Byte} : isPrintable b = true ↔ 0x20 ≤ b.toNat ∧ b.toNat ≤ 0x7E := by
  simp [isPrintable]

theorem not_terminator_of_isPrintable {b : Byte} (h : isPrintable b = true) : ¬ (b = Ascii.cr ∨ b = Ascii.lf) := by
  rw [← classify_terminator, classify_printable.mpr h]
  nofun

section
variable {b : Byte}

theorem receive_terminator (h : b = Ascii.cr ∨ b = Ascii.lf) (s : State) : receive b s = processLine s := by
  simp only [receive, classify_terminator.mpr h]

theorem receive_printable (h : isPrintable b = true) (s : State) : receive b s = .next (acceptByte b s) := by
  simp only [receive, classify_printable.mpr h]

theorem receive_dropped (hp : ¬ isPrintable b = true) (ht : ¬ (b = Ascii.cr ∨ b = Ascii.lf)) (s : State) :
    receive b s = .next s := by
  rw [← classify_printable] at hp
  rw [← classify_terminator] at ht
  cases hc : classify b with
  | terminator => exact absurd hc ht
  | printable => exact absurd hc hp
  | dropped => simp only [receive, hc]

end

theorem acceptByte_room {s : State} (h : s.lblen < s.cfg.lineCap) (b : Byte) :
    acceptByte b s = { s with lb := Memory.write s.lb s.lblen b, lblen := s.lblen + 1 } := if_pos h

theorem acceptByte_full {s : State} (h : s.cfg.lineCap ≤ s.lblen) (b : Byte) : acceptByte b s = s :=
  if_neg (Nat.not_lt.mpr h)

/-! ### One received byte (R160 to R166) -/

/-- Settles O21: the byte is taken, then its class decides, and for a printable byte the room. -/
theorem receivedByteIsAcceptedOrDropped : Obligations.ReceivedByteIsAcceptedOrDropped := by
  intro s b l hbooted hq
  rw [exec_evRxByte_enabled hbooted hq]
  refine ⟨fun hmin hmax hroom => ?_, fun hmin hmax hfull => ?_, fun hrange hcr hlf => ?_⟩
  · rw [receive_printable (isPrintable_iff.mpr ⟨hmin, hmax⟩), acceptByte_room (s := { s with inq := l }) hroom]
  · rw [receive_printable (isPrintable_iff.mpr ⟨hmin, hmax⟩), acceptByte_full (s := { s with inq := l }) hfull]
  · refine receive_dropped (fun hp => ?_) (fun ht => ?_) _
    · have := isPrintable_iff.mp hp
      omega
    · exact (terminator_iff_toNat.mp ht).elim hcr hlf

/-- Settles O22: FG had a step, so the state after it is the one of `receivedByteIsAcceptedOrDropped`, which differs in
one write to the buffer. -/
theorem acceptedByteChangesOneBufferByte : Obligations.AcceptedByteChangesOneBufferByte := by
  intro s t b hwf hb hroom h
  obtain ⟨hbooted, hhead⟩ := rxEnabled_iff.mp (exec_evRxByte_next h).1
  obtain ⟨l, hq⟩ := List.head?_eq_some_iff.mp hhead
  obtain ⟨hmin, hmax⟩ := isPrintable_iff.mp hb
  obtain ⟨haccepted, -, -⟩ := receivedByteIsAcceptedOrDropped s b l hbooted hq
  obtain rfl := Host.Outcome.next.inj ((haccepted hmin hmax hroom).symm.trans h)
  exact ⟨Memory.read_write_same hwf _ b, fun a ha => Memory.read_write_other _ b ha, rfl, rfl, rfl, rfl, rfl, rfl, rfl,
    rfl, rfl, hq⟩

/-- Taking a turn and a byte leaves the line as it is. -/
theorem currentLine_with_queues (s : State) (inq : List Byte) (sched : List Turn) :
    currentLine { s with inq := inq, sched := sched } = currentLine s :=
  currentLine_congr (t := s) rfl rfl rfl

theorem processLine_ok {s : State} {L : List Byte} {c : ParsedCommand} (h0 : s.lblen ≠ 0)
    (hL : currentLine s = .ok L) (hc : parseLine L = .ok c) :
    processLine s = .next (awaitNextLine (commandEffect c s)) := by
  rw [processLine_line h0 hL, interpret_ok hc, endLine]

theorem processLine_error {s : State} {L : List Byte} {k : ErrorKind} (h0 : s.lblen ≠ 0)
    (hL : currentLine s = .ok L) (hk : parseLine L = .error k) :
    processLine s = .next (awaitNextLine (raiseError k s)) := by
  rw [processLine_line h0 hL, interpret_error hk, endLine]

/-- An empty line is already what awaiting the next line makes of it. -/
theorem awaitNextLine_of_empty {s : State} (h : s.lblen = 0) : awaitNextLine s = s := by
  rw [awaitNextLine, ← h]

/-- Settles O23: `processLine` at the state with the byte taken, whose line is the same. -/
theorem terminatorProcessesTheLine : Obligations.TerminatorProcessesTheLine := by
  intro s b l hbooted hq hb
  rw [exec_evRxByte_enabled hbooted hq, receive_terminator (terminator_iff_toNat.mpr hb)]
  refine ⟨fun h0 => ?_, fun L k h0 hL hk => ?_, fun L c h0 hL hc => ?_⟩
  · rw [processLine_empty (s := { s with inq := l }) h0, awaitNextLine_of_empty (s := { s with inq := l }) h0]
  · exact processLine_error (s := { s with inq := l }) h0 ((currentLine_with_queues s l s.sched).trans hL) hk
  · exact ⟨_, dispatch_eq c _,
      processLine_ok (s := { s with inq := l }) h0 ((currentLine_with_queues s l s.sched).trans hL) hc⟩

theorem exec_evRxByte_noStep {s : State} (h : s.booted = false ∨ s.inq = []) (b : Byte) :
    exec (.evRxByte b) s = .fault (.noStep .fg) := by
  refine if_neg (mt rxEnabled_iff.mp ?_)
  rintro ⟨hbooted, hhead⟩
  rcases h with h | h
  · exact Bool.false_ne_true (h.symm.trans hbooted)
  · simp [h] at hhead

/-- Settles O24: FG is not enabled; its turn finds no byte to fetch, or the byte's instruction has no step. -/
theorem noLineBeforeBoot : Obligations.NoLineBeforeBoot := by
  refine fun s b rest h => ⟨exec_evRxByte_noStep h b, fun hs => ?_⟩
  by_cases hq : s.inq = []
  · exact step_fg_idle hs hq
  · obtain ⟨b', l, hq⟩ := List.exists_cons_of_ne_nil hq
    rw [step_of_fetch hs (fetch_fg_cons hq), exec_evRxByte_noStep (s := takeTurn .fg { s with sched := rest }) h b',
      settle_noStep]
    rfl

/-! ### FG's turn on a waiting byte -/

section
variable {s : State} {rest : List Turn} {b : Byte} {l L : List Byte}

theorem step_fg_receive {t : State} (hs : s.sched = .fg :: rest) (hbooted : s.booted = true) (hq : s.inq = b :: l)
    (h : receive b { s with sched := rest, inq := l } = .next t) : step s = .next t := by
  have hexec : exec (.evRxByte b) (takeTurn .fg { s with sched := rest }) = .next t :=
    (exec_evRxByte_enabled (s := takeTurn .fg { s with sched := rest }) hbooted hq).trans h
  rw [step_of_fetch hs (fetch_fg_cons hq), hexec, settle_next]

/-- A line with bytes has a length. -/
theorem lblen_ne_zero_of_currentLine (hL : currentLine s = .ok L) (hne : L ≠ []) : s.lblen ≠ 0 := by
  intro h0
  rw [currentLine, h0] at hL
  exact hne (Except.ok.inj hL).symm

/-- A terminator after a line that decodes runs the line's command, and the next line starts empty (R162). -/
theorem step_terminator_decoded {i : Instr} {c : ParsedCommand} (hs : s.sched = .fg :: rest)
    (hbooted : s.booted = true) (hq : s.inq = b :: l) (hb : b = Ascii.cr ∨ b = Ascii.lf)
    (hL : currentLine s = .ok L) (hi : decode L = .ok i) (hc : commandOf i = some c) :
    step s = .next (awaitNextLine (commandEffect c { s with sched := rest, inq := l })) := by
  obtain ⟨c', hparse, hc'⟩ := parseLine_of_decode hi
  obtain rfl := Option.some.inj (hc.symm.trans hc')
  have hne : L ≠ [] := by
    rintro rfl
    cases hi
  have hlblen : s.lblen ≠ 0 := lblen_ne_zero_of_currentLine hL hne
  apply step_fg_receive hs hbooted hq
  rw [receive_terminator hb]
  exact processLine_ok (s := { s with sched := rest, inq := l }) hlblen ((currentLine_with_queues s l rest).trans hL)
    hparse

end

/-- Settles O9: the line's command is the one `exec` of the decoded instruction runs. -/
theorem stepRunsTheDecodedCommand : Obligations.StepRunsTheDecodedCommand := by
  intro s rest b l L i hs hbooted hq hb hL hi
  obtain ⟨c, -, hc⟩ := parseLine_of_decode hi
  exact ⟨_, exec_of_command hc _, step_terminator_decoded hs hbooted hq hb hL hi hc⟩

/-! ### Bytes that end no line (R161, R163, R165) -/

/-- The state with another line in the buffer. -/
def withLine (lb : Memory) (n : Nat) (s : State) : State := { s with lb := lb, lblen := n }

/-- The bytes `A` stored after the line there is. -/
def appendLine (A : List Byte) (s : State) : State :=
  withLine (Memory.writeList s.lb s.lblen A) (s.lblen + A.length) s

/-- Those of the bytes received that the line takes: the printable ones there is room for. -/
def accepted (bs : List Byte) (s : State) : List Byte := (bs.filter isPrintable).take (s.cfg.lineCap - s.lblen)

theorem Memory.writeList_append (m : Memory) (a : Nat) (A B : List Byte) :
    Memory.writeList m a (A ++ B) = Memory.writeList (Memory.writeList m a A) (a + A.length) B := by
  induction A generalizing m a with
  | nil => rfl
  | cons b A ih =>
    rw [List.cons_append, Memory.writeList, Memory.writeList, ih, List.length_cons, Nat.add_right_comm, Nat.add_assoc]

/-- What a block of writes has stored is read back as a block. -/
theorem Memory.block_writeList {m : Memory} (hm : Memory.wf m) (a : Nat) (A : List Byte) :
    Memory.block (Memory.writeList m a A) a A.length = A := by
  induction A generalizing m a with
  | nil => rfl
  | cons b A ih =>
    rw [Memory.writeList, List.length_cons, Memory.block, ih (Memory.wf_write hm a b),
      Memory.read_writeList_below _ _ (Nat.lt_succ_self a), Memory.read_write_same hm]

theorem appendLine_append (A B : List Byte) (s : State) :
    appendLine (A ++ B) s = appendLine B (appendLine A s) := by
  simp only [appendLine, withLine, Memory.writeList_append, List.length_append, Nat.add_assoc]

theorem accepted_nil (s : State) : accepted [] s = [] := List.take_nil

/-- The line takes bytes one after the other: the room for the later ones is what the earlier ones leave. -/
theorem accepted_append (bs cs : List Byte) (s : State) :
    accepted (bs ++ cs) s = accepted bs s ++ accepted cs (appendLine (accepted bs s) s) := by
  have hroom : s.cfg.lineCap - s.lblen - (bs.filter isPrintable).length
      = s.cfg.lineCap - (s.lblen + (accepted bs s).length) := by
    rw [accepted, List.length_take]
    omega
  rw [accepted, List.filter_append, List.take_append, hroom]
  rfl

/-- A byte that ends no line is appended when it is printable and there is room, and dropped otherwise. -/
theorem receive_data {b : Byte} (hb : ¬ (b = Ascii.cr ∨ b = Ascii.lf)) (s : State) :
    receive b s = .next (appendLine (accepted [b] s) s) := by
  by_cases hp : isPrintable b = true
  · rw [receive_printable hp, accepted, List.filter_cons_of_pos hp, List.filter_nil]
    rcases Nat.lt_or_ge s.lblen s.cfg.lineCap with hroom | hfull
    · rw [acceptByte_room hroom, List.take_of_length_le (Nat.le_sub_of_add_le' hroom)]
      rfl
    · rw [acceptByte_full hfull, Nat.sub_eq_zero_of_le hfull]
      rfl
  · rw [receive_dropped hp hb, accepted, List.filter_cons_of_neg hp, List.filter_nil, List.take_nil]
    rfl

/-- FG's turns over bytes that end no line all run, and append the accepted ones. -/
theorem run_fgTurns (bs l : List Byte) (rest : List Turn) {s : State} (hbooted : s.booted = true)
    (hq : s.inq = bs ++ l) (hs : s.sched = fgTurns bs.length ++ rest)
    (hbs : ∀ b ∈ bs, ¬ (b = Ascii.cr ∨ b = Ascii.lf)) :
    core.run bs.length s = .next (appendLine (accepted bs s) { s with inq := l, sched := rest }) := by
  induction bs generalizing s with
  | nil =>
    obtain rfl : l = s.inq := hq.symm
    obtain rfl : rest = s.sched := hs.symm
    rw [accepted_nil]
    rfl
  | cons b bs ih =>
    have hstep := step_fg_receive hs hbooted hq (receive_data (hbs b List.mem_cons_self) _)
    have htail := ih (s := appendLine (accepted [b] s) { s with sched := fgTurns bs.length ++ rest, inq := bs ++ l })
      hbooted rfl rfl fun b' hb' => hbs b' (List.mem_cons_of_mem b hb')
    have haccepted : accepted (b :: bs) s = _ := accepted_append [b] bs s
    rw [List.length_cons, run_of_step hstep, haccepted, appendLine_append]
    exact htail

section
variable {s : State}

theorem currentLine_appendLine {A : List Byte} (hwf : Memory.wf s.lb) (h0 : s.lblen = 0)
    (hA : A.length ≤ s.cfg.lineCap) : currentLine (appendLine A s) = .ok A := by
  have hfits : (appendLine A s).lblen ≤ (appendLine A s).cfg.lineCap := by
    simpa [appendLine, withLine, h0] using hA
  rw [currentLine_eq _ hfits]
  simp only [appendLine, withLine, h0, Nat.zero_add, Memory.block_writeList hwf]

theorem accepted_of_empty (h0 : s.lblen = 0) (bs : List Byte) :
    accepted bs s = (bs.filter isPrintable).take s.cfg.lineCap := by
  rw [accepted, h0, Nat.sub_zero]

/-- Printable bytes the capacity admits are all accepted by an empty line. -/
theorem accepted_eq_self {L : List Byte} (h0 : s.lblen = 0) (hlength : L.length ≤ s.cfg.lineCap)
    (hprintable : ∀ b ∈ L, isPrintable b = true) : accepted L s = L := by
  rw [accepted_of_empty h0, List.filter_eq_self.mpr hprintable, List.take_of_length_le hlength]

end

/-- Settles O25: the run appends the accepted bytes to the empty line, and the line read back is what was stored. -/
theorem lineIsTheFirstAcceptedBytes : Obligations.LineIsTheFirstAcceptedBytes := by
  intro bs l rest s hwf hbooted h0 hq hs hbs
  have hrun := run_fgTurns bs l rest hbooted hq hs fun b hb => not_or.mpr (hbs b hb)
  rw [accepted_of_empty h0] at hrun
  exact ⟨_, hrun, currentLine_appendLine (s := { s with inq := l, sched := rest }) hwf h0 (List.length_take_le _ _), rfl⟩

/-! ### A command reads no line (R210) -/

section
variable (lb : Memory) (n : Nat) (s : State)

theorem setSpeed_withLine (m : Motor) (v : I8) :
    setSpeed m v (withLine lb n s) = withLine lb n (setSpeed m v s) := by
  cases hd : s.drive with
  | braking r => rw [setSpeed_of_braking hd, setSpeed_of_braking (s := withLine lb n s) hd]; rfl
  | coasting r => rw [setSpeed_of_coasting hd, setSpeed_of_coasting (s := withLine lb n s) hd]; rfl

theorem disableOrReport_withLine (m : Motor) (v : I8) :
    disableOrReport m v (withLine lb n s) = withLine lb n (disableOrReport m v s) := by
  cases hd : s.drive with
  | braking r => rw [disableOrReport_of_braking hd, disableOrReport_of_braking (s := withLine lb n s) hd]; rfl
  | coasting r =>
    rw [disableOrReport_of_coasting hd, disableOrReport_of_coasting (s := withLine lb n s) hd,
      setDisable_of_coasting hd, setDisable_of_coasting (s := withLine lb n s) hd]
    rfl

theorem answerDisable_withLine (m : Motor) :
    answerDisable m (withLine lb n s) = withLine lb n (answerDisable m s) := by
  have hget : getDisable m (withLine lb n s) = getDisable m s := rfl
  cases h : getDisable m s <;> simp only [answerDisable, hget, h] <;> rfl

/-- What a command does is the same whatever line stands in the buffer, and leaves that line there. -/
theorem commandEffect_withLine : ∀ c : ParsedCommand,
    commandEffect c (withLine lb n s) = withLine lb n (commandEffect c s)
  | .get .m1Speed | .get .m2Speed | .get .m1Current | .get .m2Current => rfl
  | .get .m1Disable => answerDisable_withLine lb n s .m1
  | .get .m2Disable => answerDisable_withLine lb n s .m2
  | .set .m1Speed v => setSpeed_withLine lb n s .m1 v
  | .set .m2Speed v => setSpeed_withLine lb n s .m2 v
  | .set .m1Disable v => disableOrReport_withLine lb n s .m1 v
  | .set .m2Disable v => disableOrReport_withLine lb n s .m2 v
  | .get .led1 | .get .led2 | .get .led3 | .get .led4 => rfl
  | .set .led1 _ | .set .led2 _ | .set .led3 _ | .set .led4 _ => rfl
  | .set .m1Current _ | .set .m2Current _ => rfl

end

/-- When a line has ended, what is left of it is bytes in the buffer. -/
theorem awaitNextLine_withLine {s : State} (h : s.lblen = 0) (lb : Memory) (n : Nat) :
    awaitNextLine (withLine lb n s) = { s with lb := lb } := by
  rw [awaitNextLine, ← h]
  rfl

@[simp] theorem commandEffect_lblen (c : ParsedCommand) (s : State) : (commandEffect c s).lblen = s.lblen := by
  rw [commandEffect_eq]

/-! ### A whole line (R160 to R162, R180, R210) -/

/-- Settles O26: FG's turns over the line store it (`run_fgTurns`); the terminator's turn runs the command it decodes to
(`step_terminator_decoded`), which does not read the buffer (`commandEffect_withLine`). -/
theorem receivedLineRunsItsCommand : Obligations.ReceivedLineRunsItsCommand := by
  intro s i L l rest hwf hbooted h0 hi he hq hs
  obtain ⟨-, hlength, hprintable⟩ := lineForm i s.cfg L hi he
  obtain ⟨c, -, hc⟩ := parseLine_of_decode (decode_encode he)
  have hturns : s.sched = fgTurns L.length ++ .fg :: rest := by
    rw [hs, fgTurns, List.replicate_succ', List.append_assoc]
    rfl
  have hrun := run_fgTurns L (Ascii.cr :: l) (.fg :: rest) hbooted hq hturns
    fun b hb => not_terminator_of_isPrintable (hprintable b hb)
  rw [accepted_eq_self h0 hlength hprintable] at hrun
  have hstep := step_terminator_decoded (s := appendLine L { s with inq := Ascii.cr :: l, sched := .fg :: rest })
    rfl hbooted rfl (.inl rfl) (currentLine_appendLine hwf h0 hlength) (decode_encode he) hc
  refine ⟨_, exec_of_command hc _, Memory.writeList s.lb s.lblen L, ?_⟩
  rw [run_add hrun, run_of_step hstep]
  have heffect := commandEffect_withLine (Memory.writeList s.lb s.lblen L) (s.lblen + L.length)
    { s with inq := l, sched := rest } c
  have hempty : (commandEffect c { s with inq := l, sched := rest }).lblen = 0 := (commandEffect_lblen c _).trans h0
  exact congrArg Host.Outcome.next ((congrArg awaitNextLine heffect).trans (awaitNextLine_withLine hempty _ _))

end Machine

end Sys2Proof
end

section
/-! PROOFS of the family 45_commands: what each of the twenty forms answers or writes (R212 to R231), that a line which
answers writes nothing else (R232), that each line has one response (R233), and the frame of the commands. The forms go
through what their shared operations do (`answerSpeed`, `answerDisable`, `disableOrReport`, `setSpeed`), the laws of all
forms through what a command can do (`commandEffect_cases`). -/

namespace Sys2Proof.Machine

/-! ### The get forms (R212 to R221) -/

theorem exec_get_speed {m : Motor} {i : Instr} {tl : Option (List Byte)}
    (h : m = .m1 ∧ i = .getM1speed tl ∨ m = .m2 ∧ i = .getM2speed tl) (s : State) :
    exec i s = .next (answerSpeed m s) := by
  rcases h with ⟨rfl, rfl⟩ | ⟨rfl, rfl⟩
  · rfl
  · rfl

theorem answerSpeed_of_braking {s : State} {r : PerMotor BrakingRegs} (h : s.drive = .braking r) (m : Motor) :
    answerSpeed m s = emit (valueResponse s.cfg 8 ((r.get m).dutyF ||| (r.get m).dutyR).toNat) s := by
  rw [answerSpeed, getSpeed_of_braking h]

theorem answerSpeed_of_coasting {s : State} {r : PerMotor CoastingRegs} (h : s.drive = .coasting r) (m : Motor) :
    answerSpeed m s = emit (valueResponse s.cfg 8 (r.get m).dutyE.toNat) s := by
  rw [answerSpeed, getSpeed_of_coasting h]

theorem boolByte_toNat (b : Bool) : (boolByte b).toNat = if b then 1 else 0 := by
  cases b <;> rfl

theorem answerDisable_of_coasting {s : State} {r : PerMotor CoastingRegs} (h : s.drive = .coasting r) (m : Motor) :
    answerDisable m s = emit (valueResponse s.cfg 8 (if (r.get m).hiz then 1 else 0)) s := by
  rw [← boolByte_toNat]
  simp only [answerDisable, getDisable, h]

/-- Settles O27: both forms are `answerSpeed` of their motor. -/
theorem getSpeedReadsBackTheDuty : Obligations.GetSpeedReadsBackTheDuty := by
  refine fun s t => ⟨fun r hd => ⟨?_, ?_⟩, fun r hd => ⟨?_, ?_⟩⟩
  · exact congrArg Host.Outcome.next (answerSpeed_of_braking hd .m1)
  · exact congrArg Host.Outcome.next (answerSpeed_of_braking hd .m2)
  · exact congrArg Host.Outcome.next (answerSpeed_of_coasting hd .m1)
  · exact congrArg Host.Outcome.next (answerSpeed_of_coasting hd .m2)

/-- Settles O28: both forms are `answerDisable` of their motor. -/
theorem getDisableReadsThePin : Obligations.GetDisableReadsThePin := by
  refine fun s t => ⟨fun r hd => ⟨?_, ?_⟩, fun r hd => ⟨?_, ?_⟩⟩
  · exact congrArg Host.Outcome.next (answerDisable_of_coasting hd .m1)
  · exact congrArg Host.Outcome.next (answerDisable_of_coasting hd .m2)
  · exact congrArg Host.Outcome.next (answerDisable_of_braking hd .m1)
  · exact congrArg Host.Outcome.next (answerDisable_of_braking hd .m2)

/-- Settles O29: all eight forms raise `NotImplemented`. -/
theorem ledFormsAnswerNotImplemented : Obligations.LedFormsAnswerNotImplemented := by
  intro s t v i hi
  simp only [List.mem_cons, List.not_mem_nil, or_false] at hi
  rcases hi with rfl | rfl | rfl | rfl | rfl | rfl | rfl | rfl <;> rfl

/-- Settles O30: both forms are `answerCurrent` of their motor, which reads the sample cell. -/
theorem getCurrentAnswersTheSample : Obligations.GetCurrentAnswersTheSample := fun _ _ => ⟨rfl, rfl⟩

/-- A readback reads the motor's own registers and nothing else (R140, R142). -/
theorem getSpeed_congr {s u : State} {m : Motor}
    (h : (∃ r q, s.drive = .braking r ∧ u.drive = .braking q ∧ r.get m = q.get m) ∨
      (∃ r q, s.drive = .coasting r ∧ u.drive = .coasting q ∧ r.get m = q.get m)) : getSpeed m s = getSpeed m u := by
  rcases h with ⟨r, q, hs, hu, hregs⟩ | ⟨r, q, hs, hu, hregs⟩
  · rw [getSpeed_of_braking hs, getSpeed_of_braking hu, hregs]
  · rw [getSpeed_of_coasting hs, getSpeed_of_coasting hu, hregs]

/-- A value's response depends on the padding alone of the parameters (R96). -/
theorem valueResponse_congr {c d : Config} (h : c.hexPad = d.hexPad) (w v : Nat) :
    valueResponse c w v = valueResponse d w v := by
  rw [valueResponse, valueResponse, h]

/-- Settles O31: the two readbacks are equal, and so are their responses. -/
theorem speedReadbackIgnoresEverythingElse : Obligations.SpeedReadbackIgnoresEverythingElse := by
  intro s u s' u' t m i hi hpad hregs hs hu
  rw [exec_get_speed hi, Host.Outcome.next.injEq] at hs hu
  subst hs hu
  refine ⟨valueResponse s.cfg 8 (getSpeed m s).toNat, rfl, ?_⟩
  rw [valueResponse_congr hpad, getSpeed_congr hregs]
  rfl

/-! ### The set forms (R222 to R231) -/

/-- The drive code by the sign of the speed (R131, R134). -/
theorem driveCode_toNat (v : I8) :
    ((driveCode v).toNat : Int) =
      if 0 < v.toInt then 2 * v.toInt else if v.toInt < 0 then 2 * (-v.toInt) - 1 else 0 := by
  have hadd := driveCode_toNat_eq_add v
  have hfwd := fwdCode_toNat v
  have hrev := revCode_toNat v
  by_cases hpos : 0 < v.toInt
  · rw [if_pos hpos] at hfwd ⊢
    rw [if_neg (by omega)] at hrev
    omega
  · rw [if_neg hpos] at hfwd ⊢
    omega

/-- Storing a code and decoding it are the same complement (R133). -/
theorem encDuty_toNat (coastInvert : Bool) (d : Byte) :
    ((encDuty coastInvert d).toNat : Int) = if coastInvert then 255 - (d.toNat : Int) else (d.toNat : Int) :=
  decDuty_toNat coastInvert d

theorem direction_of_pos {v : I8} (h : 0 < v.toInt) (sign : SignConv) (dirf : Bool) :
    direction sign v dirf = decide (sign = .normal) := if_pos h

theorem direction_of_neg {v : I8} (h : v.toInt < 0) (sign : SignConv) (dirf : Bool) :
    direction sign v dirf = decide (sign = .inverted) := by
  rw [direction, if_neg (by omega), if_pos h]

theorem direction_of_zero {v : I8} (h : v.toInt = 0) (sign : SignConv) (dirf : Bool) :
    direction sign v dirf = dirf := by
  rw [direction, if_neg (by omega), if_neg (by omega)]

/-- Settles O32: `setSpeed` writes one motor's cell, with `brakingSpeed` or `coastingSpeed` of the speed. -/
theorem setSpeedWritesTheDuty : Obligations.SetSpeedWritesTheDuty := by
  refine fun s m v i hi => ⟨fun r hd => ?_, fun r hd => ?_⟩
  · rw [exec_set_speed hi, setSpeed_of_braking hd]
    refine ⟨_, rfl, PerMotor.get_set_other r m _, fwdCode v, revCode v, fwdCode_toNat v, revCode_toNat v, ?_⟩
    rw [PerMotor.get_set_self]
    constructor <;> intro hsign <;> rw [hsign] <;> exact ⟨rfl, rfl⟩
  · rw [exec_set_speed hi, setSpeed_of_coasting hd]
    refine ⟨_, rfl, PerMotor.get_set_other r m _, ?_⟩
    rw [PerMotor.get_set_self]
    refine ⟨rfl, ⟨(driveCode v).toNat, driveCode_toNat v, encDuty_toNat _ _⟩, fun hpos => ?_, fun hneg => ?_,
      fun hzero => direction_of_zero hzero _ _⟩
    · rw [coastingSpeed, direction_of_pos hpos, decide_eq_true_iff]
    · rw [coastingSpeed, direction_of_neg hneg, decide_eq_true_iff]

theorem truth_iff {v : I8} : truth v = true ↔ v.toInt ≠ 0 := by
  have hzero : v.toInt = (0 : I8).toInt ↔ v = 0 := BitVec.toInt_inj
  rw [truth, decide_eq_true_iff, ne_eq, ← hzero]
  rfl

/-- Settles O33: `disableOrReport` drives the motor's pin where there is one, and reports where there is none. -/
theorem setDisableDrivesThePin : Obligations.SetDisableDrivesThePin := by
  refine fun s m v i hi => ⟨fun r hd => ?_, fun r hd => ?_⟩
  · rw [exec_set_disable hi, disableOrReport_of_coasting hd, setDisable_of_coasting hd]
    refine ⟨_, rfl, PerMotor.get_set_other r m _, ?_⟩
    rw [PerMotor.get_set_self]
    exact ⟨rfl, rfl, truth_iff⟩
  · rw [exec_set_disable hi, disableOrReport_of_braking hd]
    rfl

/-- Settles O34: both forms raise `UnsupportedAction`. -/
theorem setCurrentAnswersUnsupportedAction : Obligations.SetCurrentAnswersUnsupportedAction := fun _ _ => ⟨rfl, rfl⟩

/-! ### Every line has one response (R232, R233) -/

/-- A command that answers is not one that writes registers. -/
theorem commandEffect_of_txq_ne {c : ParsedCommand} {s : State} (h : (commandEffect c s).txq ≠ s.txq) :
    ∃ r, commandEffect c s = emit r s := by
  rcases commandEffect_cases c s with ⟨r, -, e⟩ | ⟨v, ⟨-, e⟩ | ⟨-, e⟩⟩ | ⟨v, r, -, ⟨-, e⟩ | ⟨-, e⟩⟩
  · exact ⟨r, e⟩
  · exact absurd (e ▸ setSpeed_txq .m1 v s) h
  · exact absurd (e ▸ setSpeed_txq .m2 v s) h
  · exact absurd (e ▸ setDisable_txq .m1 (truth v) s) h
  · exact absurd (e ▸ setDisable_txq .m2 (truth v) s) h

/-- Settles O47: an error line emits, and so does a command that answers. -/
theorem answeringLineWritesNothingElse : Obligations.AnsweringLineWritesNothingElse := by
  intro L s t h hne
  rcases interpret_cases L s with ⟨c, -, e⟩ | ⟨k, -, e⟩ <;> obtain rfl := Host.Outcome.next.inj (e.symm.trans h)
  · obtain ⟨r, hr⟩ := commandEffect_of_txq_ne hne
    rw [hr]
    rfl
  · rfl

theorem exec_of_get {i : Instr} {p : PropertyId} {tl : Option (List Byte)} (h : i.format = .get p tl) (s : State) :
    exec i s = .next (commandEffect (.get p) s) :=
  exec_of_command (by rw [commandOf, h]) s

theorem exec_of_set {i : Instr} {p : PropertyId} {v : I8} (h : i.format = .set p v) (s : State) :
    exec i s = .next (commandEffect (.set p v) s) :=
  exec_of_command (by rw [commandOf, h]) s

/-- A received byte that ends no line, or ends an empty one, makes no response. -/
theorem evRxByte_silent {b : Byte} {s t : State} (hb : (b ≠ Ascii.cr ∧ b ≠ Ascii.lf) ∨ s.lblen = 0)
    (h : exec (.evRxByte b) s = .next t) : t.txq = s.txq := by
  have h : execEvRxByte b s = .next t := h
  rcases execEvRxByte_cases b s with ⟨-, e⟩ | ⟨-, hc, e⟩ | ⟨-, -, e⟩ | ⟨-, -, e⟩ <;> rw [e] at h
  · cases h
  · have hempty : s.lblen = 0 :=
      hb.resolve_left fun ⟨hcr, hlf⟩ => (classify_terminator.mp hc).elim hcr hlf
    rw [processLine_empty (s := popIn s) hempty] at h
    cases h
    rfl
  · cases h
    exact acceptByte_txq b (popIn s)
  · cases h
    rfl

/-- Settles O48: error lines and `get`s answer (`answers_get`), a `set` is silent or answers, and neither an event nor a
byte that ends no line with bytes touches `TXQ`. -/
theorem oneResponsePerLine : Obligations.OneResponsePerLine := by
  refine fun s t hwf => ⟨fun L k hk h => ?_, fun i p tl hi h => ?_, fun i p v hi h => ?_, fun i hi hn h => ?_,
    fun b hb h => evRxByte_silent hb h⟩
  · obtain rfl := Host.Outcome.next.inj ((interpret_error hk s).symm.trans h)
    exact answers_raiseError hwf k
  · obtain rfl := Host.Outcome.next.inj ((exec_of_get hi s).symm.trans h)
    exact answers_get hwf p
  · obtain rfl := Host.Outcome.next.inj ((exec_of_set hi s).symm.trans h)
    exact silent_or_answers_set hwf v p
  · obtain ⟨-, htxq, -⟩ := eventsLeaveTheRestUnchanged i s t hi hn h
    exact htxq

/-! ### The frame of the commands (R25, R29, R212 to R234) -/

/-- Two sets of registers of one strategy agree on the motor `m`. -/
def SameRegs (m : Motor) (d e : Drive) : Prop :=
  (∀ r q, d = .braking r → e = .braking q → q.get m = r.get m) ∧
  (∀ r q, d = .coasting r → e = .coasting q → q.get m = r.get m)

theorem sameRegs_refl (m : Motor) (d : Drive) : SameRegs m d d :=
  ⟨fun _ _ hr hq => by rw [Drive.braking.inj (hr.symm.trans hq)],
    fun _ _ hr hq => by rw [Drive.coasting.inj (hr.symm.trans hq)]⟩

theorem sameRegs_braking {m k : Motor} (h : m ≠ k) (r : PerMotor BrakingRegs) (x : BrakingRegs) :
    SameRegs m (.braking r) (.braking (r.set k x)) := by
  refine ⟨fun _ _ hr hq => ?_, nofun⟩
  cases hr
  cases hq
  rw [PerMotor.get_set, if_neg h]

theorem sameRegs_coasting {m k : Motor} (h : m ≠ k) (r : PerMotor CoastingRegs) (x : CoastingRegs) :
    SameRegs m (.coasting r) (.coasting (r.set k x)) := by
  refine ⟨nofun, fun _ _ hr hq => ?_⟩
  cases hr
  cases hq
  rw [PerMotor.get_set, if_neg h]

theorem sameRegs_setSpeed {m k : Motor} (h : m ≠ k) (v : I8) (s : State) :
    SameRegs m s.drive (setSpeed k v s).drive := by
  cases hd : s.drive with
  | braking r => rw [setSpeed_of_braking hd]; exact sameRegs_braking h r _
  | coasting r => rw [setSpeed_of_coasting hd]; exact sameRegs_coasting h r _

theorem sameRegs_setDisable {m k : Motor} (h : m ≠ k) (b : Bool) (s : State) :
    SameRegs m s.drive (setDisable k b s).drive := by
  cases hd : s.drive with
  | braking r => rw [setDisable_of_braking hd, hd]; exact sameRegs_refl m _
  | coasting r => rw [setDisable_of_coasting hd]; exact sameRegs_coasting h r _

/-- A command names a motor when it sets its speed or its disable pin. -/
def NamesMotor (c : ParsedCommand) (m : Motor) : Prop :=
  ∃ v, m = .m1 ∧ (c = .set .m1Speed v ∨ c = .set .m1Disable v) ∨
    m = .m2 ∧ (c = .set .m2Speed v ∨ c = .set .m2Disable v)

theorem commandEffect_sameRegs {c : ParsedCommand} {m : Motor} (h : ¬ NamesMotor c m) (s : State) :
    SameRegs m s.drive (commandEffect c s).drive := by
  rcases commandEffect_cases c s with ⟨r, -, e⟩ | ⟨v, ⟨rfl, e⟩ | ⟨rfl, e⟩⟩ | ⟨v, r, -, ⟨rfl, e⟩ | ⟨rfl, e⟩⟩ <;> rw [e]
  · exact sameRegs_refl m _
  · exact sameRegs_setSpeed (fun hm => h ⟨v, .inl ⟨hm, .inl rfl⟩⟩) v s
  · exact sameRegs_setSpeed (fun hm => h ⟨v, .inr ⟨hm, .inl rfl⟩⟩) v s
  · exact sameRegs_setDisable (fun hm => h ⟨v, .inl ⟨hm, .inr rfl⟩⟩) _ s
  · exact sameRegs_setDisable (fun hm => h ⟨v, .inr ⟨hm, .inr rfl⟩⟩) _ s

theorem commandEffect_strategy (c : ParsedCommand) (s : State) : (commandEffect c s).strategy = s.strategy :=
  (change_commandEffect s c).build_eq.2

theorem txq_extended_by_commandEffect (c : ParsedCommand) (s : State) : s.txq <+: (commandEffect c s).txq := by
  by_cases h : (commandEffect c s).txq = s.txq
  · exact ⟨[], by rw [List.append_nil, h]⟩
  · obtain ⟨r, hr⟩ := commandEffect_of_txq_ne h
    rw [hr]
    exact ⟨r, rfl⟩

/-- Settles O49: a command writes `TXQ` and registers only (`commandEffect_eq`): it appends to `TXQ`, and the registers
are those of the motor it names. -/
theorem commandsLeaveTheRestUnchanged : Obligations.CommandsLeaveTheRestUnchanged := by
  intro i s t hi h
  obtain ⟨c, hc⟩ := commandOf_of_isCommand hi
  obtain rfl := Host.Outcome.next.inj ((exec_of_command hc s).symm.trans h)
  have hregs : ∀ m, (∀ v, ¬ (m = .m1 ∧ (i = .setM1speed v ∨ i = .setM1disable v)) ∧
      ¬ (m = .m2 ∧ (i = .setM2speed v ∨ i = .setM2disable v))) → SameRegs m s.drive (commandEffect c s).drive := by
    refine fun m hm => commandEffect_sameRegs ?_ s
    rintro ⟨v, hnamed⟩
    obtain ⟨hnot1, hnot2⟩ := hm v
    rcases hnamed with ⟨hm1, rfl | rfl⟩ | ⟨hm2, rfl | rfl⟩
    · exact hnot1 ⟨hm1, .inl (eq_ofSet_of_commandOf hc)⟩
    · exact hnot1 ⟨hm1, .inr (eq_ofSet_of_commandOf hc)⟩
    · exact hnot2 ⟨hm2, .inl (eq_ofSet_of_commandOf hc)⟩
    · exact hnot2 ⟨hm2, .inr (eq_ofSet_of_commandOf hc)⟩
  rw [commandEffect_eq]
  exact ⟨rfl, rfl, rfl, rfl, rfl, rfl, rfl, rfl, rfl, commandEffect_strategy c s, fun _ => rfl,
    txq_extended_by_commandEffect c s, hregs⟩

end Sys2Proof.Machine
end

section
/-! PROOFS of the family 60_exceptions: which instructions are refused (R269), what a refused step leaves behind (R10),
and what the sampler's steps leave to FG (R261). A boot operation answers through one guard, so each is refused exactly
when its guard fails (`guarded_refused_iff`); only a refused step adds a mark (`exec_marks`, `runTurn_marks`). -/

namespace Sys2Proof.Machine

/-! ### The sampler's steps leave FG's state (R261) -/

/-- When a completion answers a next state, its conversion ended. -/
theorem exec_evAdcDone_next {a : U16} {s t : State} (h : exec (.evAdcDone a) s = .next t) : t = completed a s := by
  by_cases he : adcEnabled s = true
  · by_cases hr : adcInRange s.cfg a = true
    · exact (Host.Outcome.next.inj ((exec_evAdcDone_taken he hr).symm.trans h)).symm
    · cases (exec_evAdcDone_refused he hr).symm.trans h
  · cases (exec_evAdcDone_noStep a he).symm.trans h

/-- Settles O52: the handler and a completion write sampler fields only. -/
theorem samplerNeverTouchesTheForeground : Obligations.SamplerNeverTouchesTheForeground := by
  rintro s t i (rfl | ⟨a, rfl⟩) h
  · obtain rfl := exec_isrConvComplete_next h
    exact ⟨rfl, rfl⟩
  · obtain rfl := exec_evAdcDone_next h
    exact ⟨rfl, rfl⟩

/-! ### Which instructions are refused (R269) -/

theorem guarded_refused_iff {g : Bool} {t : State} {q : Refusal} :
    (∃ r, (if g = true then Host.Outcome.next (φ := Fault) t else .refused q) = .refused r) ↔ ¬ g = true := by
  cases g <;> simp

section
variable {s : State}

theorem exec_bootConnect_refused_iff :
    (∃ r, exec .bootConnect s = .refused r) ↔ s.irqEn = true ∨ s.booted = true :=
  guarded_refused_iff.trans (by rw [connectAllowed_iff]; grind)

theorem exec_bootArm_refused_iff :
    (∃ r, exec .bootArm s = .refused r) ↔ s.irqEn = false ∨ s.armed = true ∨ s.booted = true :=
  guarded_refused_iff.trans (by rw [armAllowed_iff]; grind)

theorem exec_bootEnable_refused_iff {m : Motor} {e : Bool} :
    (∃ r, exec (.bootEnable m e) s = .refused r) ↔ s.booted = true :=
  guarded_refused_iff.trans (by rw [enableAllowed_iff, Bool.not_eq_false])

theorem exec_bootDone_refused_iff :
    (∃ r, exec .bootDone s = .refused r) ↔ s.armed = false ∨ s.booted = true :=
  guarded_refused_iff.trans (by rw [doneAllowed_iff]; grind)

theorem exec_bootInstr_refused_after_boot (h : s.booted = true) (op : BootOp) :
    ∃ r, exec (bootInstr op) s = .refused r := by
  cases op with
  | connect => exact exec_bootConnect_refused_iff.mpr (.inr h)
  | arm => exact exec_bootArm_refused_iff.mpr (.inr (.inr h))
  | enable m e => exact exec_bootEnable_refused_iff.mpr h
  | done => exact exec_bootDone_refused_iff.mpr (.inr h)

/-- A draw is refused when it is out of range and its completion is enabled (log entry 9). -/
theorem exec_evAdcDone_refused_iff {a : U16} :
    (∃ r, exec (.evAdcDone a) s = .refused r) ↔
      s.adcBusy = true ∧ s.irqPending = false ∧ 2 ^ s.cfg.adcBits ≤ a.toNat := by
  rw [← and_assoc, ← adcEnabled_iff, ← Nat.not_lt, ← adcInRange_iff]
  by_cases he : adcEnabled s = true
  · by_cases hr : adcInRange s.cfg a = true
    · simp [exec_evAdcDone_taken he hr, hr]
    · simp [exec_evAdcDone_refused he hr, he, hr]
  · simp [exec_evAdcDone_noStep a he, he]

theorem exec_isrConvComplete_not_refused : ¬ ∃ r, exec .isrConvComplete s = .refused r := by
  rcases exec_isrConvComplete_cases s with ⟨t, e⟩ | ⟨-, e⟩ <;> simp [e]

theorem processLine_not_refused : ¬ ∃ r, processLine s = .refused r := by
  rcases processLine_cases s with ⟨-, e⟩ | ⟨L, c, -, -, -, e⟩ | ⟨L, k, -, -, -, e⟩ | ⟨n, -, -, e⟩ <;> simp [e]

theorem exec_evRxByte_not_refused {b : Byte} : ¬ ∃ r, exec (.evRxByte b) s = .refused r := by
  show ¬ ∃ r, execEvRxByte b s = .refused r
  rcases execEvRxByte_cases b s with ⟨-, e⟩ | ⟨-, -, e⟩ | ⟨-, -, e⟩ | ⟨-, -, e⟩ <;> rw [e]
  · simp
  · exact processLine_not_refused
  · simp
  · simp

theorem exec_command_not_refused {i : Instr} (hi : i.isCommand = true) : ¬ ∃ r, exec i s = .refused r := by
  obtain ⟨t, e⟩ := exec_command_next hi s
  simp [e]

end

/-! ### No step takes a mark away (R10, R269) -/

theorem commandEffect_marks (c : ParsedCommand) (s : State) : (commandEffect c s).marks = s.marks := by
  rw [commandEffect_eq]

theorem worldTurn_marks (turn : Turn) (s : State) : (worldTurn turn s).marks = s.marks := by
  cases turn <;> rfl

/-- An event that has its step writes no mark, a received byte that runs a command included. -/
theorem event_marks {i : Instr} {s t : State} (hi : i.isCommand = false) (h : exec i s = .next t) :
    t.marks = s.marks := by
  by_cases hb : ∃ b, i = .evRxByte b
  · obtain ⟨b, rfl⟩ := hb
    obtain ⟨-, rfl | rfl | ⟨c, rfl⟩ | ⟨k, rfl⟩ | ⟨-, rfl⟩⟩ := exec_evRxByte_next h
    · rfl
    · rfl
    · exact commandEffect_marks c (popIn s)
    · rfl
    · exact acceptByte_marks b (popIn s)
  · obtain ⟨-, -, -, -, -, -, -, hmarks, -⟩ := eventsLeaveTheRestUnchanged i s t hi (not_exists.mp hb) h
    exact hmarks

theorem runTurn_marks {turn : Turn} {s t : State} (h : runTurn turn s = .next t) : s.marks <+: t.marks := by
  rcases runTurn_next h with ⟨-, rfl⟩ | ⟨i, hf, he⟩ | ⟨i, _, -, -, rfl⟩ | ⟨i, r, -, -, rfl⟩
  · exact (worldTurn_marks turn s).symm ▸ List.prefix_rfl
  · exact ((event_marks (fetch_isEvent hf) he).trans (takeTurn_marks turn s)).symm ▸ List.prefix_rfl
  · exact (takeTurn_marks turn s).symm ▸ List.prefix_rfl
  · rw [markRefused_marks, takeTurn_marks]
    exact List.prefix_append s.marks [r]

theorem step_marks {s t : State} (h : step s = .next t) : s.marks <+: t.marks := by
  cases hs : s.sched with
  | nil =>
    rw [step_nil hs] at h
    cases h
    exact List.prefix_rfl
  | cons turn rest =>
    rw [step_cons hs] at h
    exact runTurn_marks (s := { s with sched := rest }) h

/-! ### The obligation -/

/-- An instruction is refused exactly when it is one of the violations R269 lists. -/
theorem exec_refused_iff (i : Instr) (s : State) :
    (∃ r, exec i s = .refused r) ↔
      (i = .bootConnect ∧ (s.irqEn = true ∨ s.booted = true)) ∨
      (i = .bootArm ∧ (s.irqEn = false ∨ s.armed = true ∨ s.booted = true)) ∨
      (∃ m e, i = .bootEnable m e ∧ s.booted = true) ∨
      (i = .bootDone ∧ (s.armed = false ∨ s.booted = true)) ∨
      (∃ a, i = .evAdcDone a ∧ s.adcBusy = true ∧ s.irqPending = false ∧ 2 ^ s.cfg.adcBits ≤ a.toNat) := by
  cases i with
  | bootConnect => simpa using exec_bootConnect_refused_iff
  | bootArm => simpa using exec_bootArm_refused_iff
  | bootEnable m e => simpa using exec_bootEnable_refused_iff
  | bootDone => simpa using exec_bootDone_refused_iff
  | evAdcDone a => simpa using exec_evAdcDone_refused_iff
  | isrConvComplete => exact iff_of_false exec_isrConvComplete_not_refused (by simp)
  | evRxByte b => exact iff_of_false exec_evRxByte_not_refused (by simp)
  | _ => exact iff_of_false (exec_command_not_refused rfl) (by simp)

/-- Settles O56: the refused instructions one by one, the step of a refused turn as `settle` leaves it, and the marks
turn by turn. -/
theorem exactlyTheHostViolationsAreRefused : Obligations.ExactlyTheHostViolationsAreRefused := by
  refine ⟨exec_refused_iff, fun s a rest hs hbusy hpending hout => ?_, fun s op l rest hs hq hbooted => ?_,
    fun s t => step_marks⟩
  · have hr : ¬ adcInRange s.cfg a = true := mt adcInRange_iff.mp (Nat.not_lt.mpr hout)
    have hexec : exec (.evAdcDone a) { s with sched := rest } = .refused (.adcDraw a) :=
      exec_evAdcDone_refused (s := { s with sched := rest }) (adcEnabled_iff.mpr ⟨hbusy, hpending⟩) hr
    rw [step_of_fetch hs rfl, takeTurn, hexec]
    rfl
  · obtain ⟨r, hr⟩ := exec_bootInstr_refused_after_boot (s := takeTurn .boot { s with sched := rest }) hbooted op
    refine ⟨r, ?_⟩
    rw [step_of_fetch hs (fetch_boot_cons hq), hr, settle_refused, takeTurn, markRefused, hq]
    rfl

end Sys2Proof.Machine
end

section
/-! PROOFS of the family 70_reset_and_hazards: the boot sequence HOST performs after a reset (R282, R284) and the end of
boot (R283). A boot operation answers by its guard (`exec_bootInstr`); HOST's turns perform any list of operations
admitted one after the other, by induction over the list (`run_bootTurns`), and the boot sequence is such a list in the
state a power-on leaves. -/

namespace Sys2Proof.Machine

/-! ### The boot operations by their guards (R110, R111, R136, R283) -/

/-- What a boot operation requires. -/
def bootAllowed : BootOp → State → Bool
  | .connect => connectAllowed
  | .arm => armAllowed
  | .enable _ _ => enableAllowed
  | .done => doneAllowed

/-- What a boot operation does when it is admitted. -/
def bootEffect (op : BootOp) (s : State) : State :=
  match op with
  | .connect => { s with irqEn := true }
  | .arm => { startConversion .m1 s with armed := true }
  | .enable m e => setEnable m e s
  | .done => { s with booted := true }

/-- The refusal a boot operation answers otherwise (R269). -/
def bootRefusal : BootOp → Refusal
  | .connect => .bootConnect
  | .arm => .bootArm
  | .enable _ _ => .bootEnable
  | .done => .bootDone

theorem exec_bootInstr (op : BootOp) (s : State) :
    exec (bootInstr op) s = if bootAllowed op s then .next (bootEffect op s) else .refused (bootRefusal op) := by
  cases op <;> rfl

theorem exec_bootInstr_allowed {op : BootOp} {s : State} (h : bootAllowed op s = true) :
    exec (bootInstr op) s = .next (bootEffect op s) := (exec_bootInstr op s).trans (if_pos h)

theorem exec_bootInstr_refused {op : BootOp} {s : State} (h : ¬ bootAllowed op s = true) :
    exec (bootInstr op) s = .refused (bootRefusal op) := (exec_bootInstr op s).trans (if_neg h)

/-- Every boot guard asks that boot is not done. -/
theorem not_booted_of_bootAllowed {op : BootOp} {s : State} (h : bootAllowed op s = true) : s.booted = false := by
  cases op with
  | connect => exact (connectAllowed_iff.mp h).1
  | arm => exact (armAllowed_iff.mp h).1
  | enable m e => exact enableAllowed_iff.mp h
  | done => exact (doneAllowed_iff.mp h).1

theorem exec_bootInstr_of_booted {s : State} (h : s.booted = true) (op : BootOp) :
    exec (bootInstr op) s = .refused (bootRefusal op) :=
  exec_bootInstr_refused (mt not_booted_of_bootAllowed (ne_false_of_eq_true h))

/-- No boot guard reads the queues. -/
theorem bootAllowed_with_queues (op : BootOp) (s : State) (bootq : List BootOp) (sched : List Turn) :
    bootAllowed op { s with bootq := bootq, sched := sched } = bootAllowed op s := by
  cases op <;> rfl

/-- No boot operation reads or writes the queues. -/
theorem bootEffect_with_queues (op : BootOp) (s : State) (bootq : List BootOp) (sched : List Turn) :
    bootEffect op { s with bootq := bootq, sched := sched } =
      { bootEffect op s with bootq := bootq, sched := sched } := by
  cases op <;> rfl

/-! ### The end of boot (R283) -/

/-- FG, once it has a byte, has a step with it, whatever the byte. -/
theorem receive_ne_noStep (b : Byte) (s : State) (a : Agent) : receive b s ≠ .fault (.noStep a) := by
  by_cases ht : b = Ascii.cr ∨ b = Ascii.lf
  · rw [receive_terminator ht]
    rcases processLine_cases s with ⟨-, e⟩ | ⟨L, c, -, -, -, e⟩ | ⟨L, k, -, -, -, e⟩ | ⟨n, -, -, e⟩ <;> simp [e]
  · rw [receive_data ht]
    nofun

/-- Settles O16: the guard of R283 decides, and in the state after it `BOOTED` enables FG and fails every boot guard. -/
theorem bootDoneAdmitsLines : Obligations.BootDoneAdmitsLines := by
  refine fun s => ⟨fun h => ?_, fun h => exec_bootInstr_refused (op := .done) (mt doneAllowed_iff.mp h)⟩
  have hrefused := exec_bootInstr_of_booted (s := bootEffect .done s) rfl
  refine ⟨bootEffect .done s, exec_bootInstr_allowed (op := .done) (doneAllowed_iff.mpr h), rfl, fun b l hq => ?_,
    hrefused .connect, hrefused .arm, fun m e => hrefused (.enable m e), hrefused .done⟩
  rw [exec_evRxByte_enabled (s := bootEffect .done s) rfl hq]
  exact receive_ne_noStep b _ .fg

/-! ### HOST's boot turns (R282, R284) -/

/-- The operations are admitted one after the other from `s` on. -/
def bootAdmitted : List BootOp → State → Prop
  | [], _ => True
  | op :: ops, s => bootAllowed op s = true ∧ bootAdmitted ops (bootEffect op s)

/-- The state the operations make, one after the other. -/
def bootPerformed : List BootOp → State → State
  | [], s => s
  | op :: ops, s => bootPerformed ops (bootEffect op s)

/-- HOST's boot turn performs the operation at the head of its queue when it is admitted. -/
theorem step_boot {s : State} {op : BootOp} {l : List BootOp} {rest : List Turn} (hs : s.sched = .boot :: rest)
    (hq : s.bootq = op :: l) (ha : bootAllowed op s = true) :
    step s = .next { bootEffect op s with bootq := l, sched := rest } := by
  have htake : takeTurn .boot { s with sched := rest } = { s with bootq := l, sched := rest } := by
    rw [takeTurn, hq, List.tail_cons]
  rw [step_of_fetch hs (fetch_boot_cons hq), htake, exec_bootInstr_allowed (by rwa [bootAllowed_with_queues]),
    bootEffect_with_queues, settle_next]

/-- HOST's turns, with nothing between them, perform the operations at the head of its queue when they are admitted. -/
theorem run_bootTurns (ops l : List BootOp) (rest : List Turn) {s : State} (hq : s.bootq = ops ++ l)
    (hs : s.sched = List.replicate ops.length .boot ++ rest)
    (ha : bootAdmitted ops { s with bootq := l, sched := rest }) :
    core.run ops.length s = .next (bootPerformed ops { s with bootq := l, sched := rest }) := by
  induction ops generalizing s with
  | nil =>
    obtain rfl : l = s.bootq := hq.symm
    obtain rfl : rest = s.sched := hs.symm
    rfl
  | cons op ops ih =>
    rw [bootAdmitted, bootAllowed_with_queues, bootEffect_with_queues op s l rest] at ha
    obtain ⟨hop, hops⟩ := ha
    rw [List.length_cons, run_of_step (step_boot hs hq hop), bootPerformed, bootEffect_with_queues op s l rest]
    exact ih rfl rfl hops

/-! ### The boot sequence after a reset (R280 to R284) -/

theorem bootOps_length (c : Config) : (bootOps c).length = if c.bootEnMotors then 5 else 3 := by
  cases h : c.bootEnMotors <;> simp [bootOps, h]

/-- Each operation of the boot sequence meets its guard after the ones before it. -/
theorem bootAdmitted_bootOps {s : State} (c : Config) (hbooted : s.booted = false) (hirq : s.irqEn = false)
    (harmed : s.armed = false) : bootAdmitted (bootOps c) s := by
  cases hc : c.bootEnMotors <;>
    simp [bootOps, hc, bootAdmitted, bootAllowed, bootEffect, startConversion, connectAllowed_iff, armAllowed_iff,
      enableAllowed_iff, doneAllowed_iff, hbooted, hirq, harmed]

/-- The boot sequence makes the booted state of R284, from a state with both motors disabled. -/
theorem bootPerformed_bootOps {s : State} (c : Config) (hen : s.en = { m1 := false, m2 := false }) :
    bootPerformed (bootOps c) s = { s with
      irqEn := true, armed := true, nextCh := .m1, adcSel := .m1, adcBusy := true
      en := { m1 := c.bootEnMotors, m2 := c.bootEnMotors }, booted := true } := by
  cases hc : c.bootEnMotors with
  | false => simp [bootOps, hc, bootPerformed, bootEffect, startConversion, hen]
  | true => simp [bootOps, hc, bootPerformed, bootEffect, startConversion, setEnable, PerMotor.set]

/-- After a power-on HOST's turns, with nothing between them, run to the booted state. -/
theorem run_bootSequence {s : State} {rest : List Turn} {n : Nat} (hn : n = if s.cfg.bootEnMotors then 5 else 3)
    (hs : s.sched = List.replicate n .boot ++ rest) :
    core.run n (powerOn s) = .next { State.atReset s.strategy s.cfg s.inq rest with
      irqEn := true, armed := true, nextCh := .m1, adcSel := .m1, adcBusy := true
      en := { m1 := s.cfg.bootEnMotors, m2 := s.cfg.bootEnMotors }, booted := true, bootq := []
      marks := s.marks } := by
  obtain rfl : n = (bootOps s.cfg).length := hn.trans (bootOps_length s.cfg).symm
  rw [run_bootTurns (bootOps s.cfg) [] rest (s := powerOn s) (List.append_nil _).symm hs
    (bootAdmitted_bootOps s.cfg rfl rfl rfl), bootPerformed_bootOps s.cfg rfl]
  rfl

/-- Right after a power-on neither FG, ISR nor the ADC has a step (R282). -/
theorem exec_noStep_after_powerOn (s : State) (b : Byte) (a : U16) :
    exec (.evRxByte b) (powerOn s) = .fault (.noStep .fg) ∧ exec .isrConvComplete (powerOn s) = .fault (.noStep .isr) ∧
    exec (.evAdcDone a) (powerOn s) = .fault (.noStep .adc) :=
  ⟨exec_evRxByte_noStep (.inl rfl) b, exec_isrConvComplete_noStep Bool.false_ne_true,
    exec_evAdcDone_noStep a Bool.false_ne_true⟩

/-- A power-on in the first reset state changes nothing. -/
theorem powerOn_resetWith (st : Strategy) (c : Config) : powerOn (State.resetWith st c) = State.resetWith st c := by
  cases st <;> rfl

/-- Settles O12: the boot sequence runs from the state a power-on leaves, and the first reset state is such a state. -/
theorem bootSequenceReachesTheBootedState : Obligations.BootSequenceReachesTheBootedState := by
  refine fun st c => ⟨?_, fun s t rest hs h => ?_, fun s rest n hn hs => ?_⟩
  · have hsched : (State.resetWith st c).sched = List.replicate (if c.bootEnMotors then 5 else 3) .boot ++ [] := by
      rw [List.append_nil, ← bootOps_length]
      rfl
    have hrun := run_bootSequence rfl hsched
    rw [powerOn_resetWith, State.resetWith, atReset_strategy] at hrun
    exact hrun
  · obtain rfl := Host.Outcome.next.inj ((step_of_world hs rfl).symm.trans h)
    exact ⟨rfl, exec_noStep_after_powerOn _⟩
  · rw [run_of_step (step_of_world hs rfl)]
    exact run_bootSequence (s := { s with sched := List.replicate n .boot ++ rest }) hn rfl

end Sys2Proof.Machine
end
